-- ==== Sys2Proof/Config.lean ====
section
/-! DEFINITION. What the platform fixes (00_scope.md R11, 10_state.md R51) and the values the spec leaves free. -/

namespace Sys2Proof

/-- The open parameters of the block (R11): the size of system memory in bytes and the host address of the register
window. They are arguments of the machine, held in its state and changed by no step (log 2). -/
structure Config where
  /-- MEM_SIZE: system memory is the bytes at addresses 0 to `memSize - 1` (R11, R71). -/
  memSize : Nat
  /-- REG_BASE: the host address of the 4096-byte register window (R11, R33). -/
  regBase : Nat
  deriving DecidableEq, Repr

/-- DESIGN CHOICE (log 2): the platform the reset state stands on, with the MEM_SIZE that 95_test_vectors.md takes. -/
def Config.default : Config := { memSize := 0x00010000, regBase := 0x40000000 }

/-- A FREE VALUE (R86, R283; log 4, log 5): whether, at the moment numbered `draw`, the engine has already performed its
write of the word at address `addr`. It has no body, so nothing can be proved of its value. -/
opaque Config.freeCommit (draw addr : Nat) : Bool

end Sys2Proof
end

