-- ==== Sys2Proof/Syntax.lean ====
section
/-! DEFINITION. The commands of the block (30_encoding.md R102): one constructor for each row of the opcode table.
A command has no operand fields (R100): its operands are registers (R103). -/

namespace Sys2Proof

/-- The eight commands (R102). -/
inductive Instr where
  /-- NOP, OP 0x0 (R128). -/
  | nop
  /-- M_IDENT, OP 0x1 (R139). -/
  | mIdent
  /-- N_SAT, OP 0x2 (R137). -/
  | nSat
  /-- N_SCALEOFF, OP 0x3 (R138). -/
  | nScaleOff
  /-- M_COMPOSE, OP 0x4 (R140). -/
  | mCompose
  /-- MAT_APPLY, OP 0x5 (R160). -/
  | matApply
  /-- CONV_APPLY, OP 0x6 (R175). -/
  | convApply
  /-- BLUR_APPLY, OP 0x7 (R190). -/
  | blurApply
  deriving DecidableEq, Repr

end Sys2Proof
end

