-- ==== Sys2Proof/Word.lean ====
section
/-! DEFINITION. The word and byte of the hardware (00_scope.md R10, R12). -/

namespace Sys2Proof

/-- A register, a command word or a pixel word: 32 bits (R10). -/
abbrev Word := BitVec 32

/-- A byte of system memory, or one 8-bit channel of a pixel (R10). -/
abbrev Byte := BitVec 8

end Sys2Proof
end

