-- ==== Sys2Proof/WellFormed.lean ====
section
/-! DEFINITION. Well-formedness: of a command word (30_encoding.md R100, R101), of an instruction, and of the open
parameters (00_scope.md R11). -/

namespace Sys2Proof

/-- The field OP, bits 3:0 of a command word (R100). -/
def Word.op (w : Word) : BitVec 4 := w.extractLsb' 0 4

/-- The field RSVD, bits 31:4 of a command word (R100). -/
def Word.rsvd (w : Word) : BitVec 28 := w.extractLsb' 4 28

/-- RSVD must be 0 (R100). -/
def Word.rsvdIsZero (w : Word) : Bool := Word.rsvd w == 0

/-- OP must be assigned: 0x8 to 0xF encode no command (R101). -/
def Word.opIsAssigned (w : Word) : Bool := Word.op w < 8

/-- A command word is well formed when both checks of R101 pass. -/
def Word.wellFormed (w : Word) : Bool := Word.rsvdIsZero w && Word.opIsAssigned w

/-- The OP value the opcode map R102 gives a command. -/
def Instr.opcode : Instr → BitVec 4
  | .nop => 0x0
  | .mIdent => 0x1
  | .nSat => 0x2
  | .nScaleOff => 0x3
  | .mCompose => 0x4
  | .matApply => 0x5
  | .convApply => 0x6
  | .blurApply => 0x7

/-- An instruction is well formed when its OP is an assigned one. A command has no operands, so nothing else can be
wrong with it. -/
def Instr.wellFormed (i : Instr) : Bool := i.opcode < 8

/-- 4 ≤ MEM_SIZE ≤ 2^32 (R11). -/
def Config.memSizeLegal (c : Config) : Bool := 4 ≤ c.memSize && c.memSize ≤ 2 ^ 32

/-- REG_BASE is 4096-aligned (R11). -/
def Config.regBaseAligned (c : Config) : Bool := c.regBase % 4096 == 0

/-- The open parameters are legal (R11). -/
def Config.wellFormed (c : Config) : Bool := c.memSizeLegal && c.regBaseAligned

end Sys2Proof
end

