-- ==== Sys2Proof/Decode.lean ====
section
/-! DEFINITION. The decoder of the command word (30_encoding.md R100 to R102, R107, R108), total on every word and
rejecting by name, and the encoder after it. -/

namespace Sys2Proof

/-- Why a command word encodes no command (R101). Both are reported by the block as IllegalCommand (R253). -/
inductive DecodeError where
  /-- RSVD, bits 31:4, is not 0. -/
  | reservedBits
  /-- RSVD is 0 and OP is one of 0x8 to 0xF. -/
  | reservedOp
  deriving DecidableEq, Repr

/-- The opcode map R102 on the field OP. -/
def decodeOp (op : BitVec 4) : Except DecodeError Instr :=
  match op.toNat with
  | 0 => .ok .nop
  | 1 => .ok .mIdent
  | 2 => .ok .nSat
  | 3 => .ok .nScaleOff
  | 4 => .ok .mCompose
  | 5 => .ok .matApply
  | 6 => .ok .convApply
  | 7 => .ok .blurApply
  | _ => .error .reservedOp

/-- Decoding a command word (R100, R101, R102): RSVD must be 0, then OP selects the command. -/
def decode (w : Word) : Except DecodeError Instr :=
  if Word.rsvdIsZero w then decodeOp (Word.op w) else .error .reservedBits

/-- Decoding the four bytes of a command word as a platform stores them, the byte at the lowest address first
(20_memory.md R74, R77), with the bytes that follow. Fewer than four bytes hold no command word. -/
def decodeBytes : List Byte → Option (Except DecodeError Instr × List Byte)
  | b0 :: b1 :: b2 :: b3 :: rest => some (decode (b3 ++ b2 ++ b1 ++ b0), rest)
  | _ => none

/-- The word of a command (R100, R102): RSVD = 0 above OP. -/
def encode (i : Instr) : Word := (0 : BitVec 28) ++ i.opcode

/-- The four bytes of a command's word, the byte at the lowest address first (R77). -/
def encodeBytes (i : Instr) : List Byte :=
  [(encode i).extractLsb' 0 8, (encode i).extractLsb' 8 8, (encode i).extractLsb' 16 8, (encode i).extractLsb' 24 8]

/-- The `n` bytes of a number, least significant first. -/
def bytesOfNat : (n w : Nat) → List Byte
  | 0, _ => []
  | n + 1, w => BitVec.ofNat 8 (w % 256) :: bytesOfNat n (w / 256)

/-- The command the decoder reads from an instruction whose `nbits` bits are `w`. Every command is exactly one 32-bit
word (R100, R108): bits above `nbits` are 0, and a number that needs more than 32 bits is no command word (log 13). -/
def decodeTableWord (nbits w : Nat) : Option Instr :=
  if w % 2 ^ nbits < 2 ^ 32 then
    match decodeBytes (bytesOfNat 4 (w % 2 ^ nbits)) with
    | some (.ok i, []) => some i
    | _ => none
  else none

end Sys2Proof
end

