-- ==== Sys2Proof/Machine/State.lean ====
section
/-! DEFINITION. The state of the machine: the block's registers (10_state.md), system memory (20_memory.md R70), the
open parameters (R11), and the outside world as an input (60_exceptions.md R262). Plain data. -/

namespace Sys2Proof.Machine

/-- A colour matrix: 20 coefficient words, `m[5*i + j]` row i, column j (R18, R45). -/
abbrev ColorMatrix := Vector Word 20

/-- A convolution kernel: 9 coefficient words, `K[(dy+1)*3 + (dx+1)]` (R48). -/
abbrev ConvKernel := Vector Word 9

/-- System memory: the listed bytes, addresses strictly rising, no byte equal to what an unlisted address reads as. -/
abbrev Memory := List Host.Cell

/-- The engine state of R31: IDLE, or BUSY with the latched command word `cur`. `cur` exists only while BUSY, since R52
leaves it unspecified and unobservable otherwise (log 7). -/
inductive Engine where
  | idle
  | busy (cur : Word)
  deriving DecidableEq, Repr

/-- The error kinds of R250. -/
inductive ErrorCode where
  /-- Code 1: bad dimensions, length or source region (R251). -/
  | invalidInput
  /-- Code 2: an unusable destination or intermediate region (R252). -/
  | allocationFailure
  /-- Code 3: a word that encodes no command (R253). -/
  | illegalCommand
  deriving DecidableEq, Repr

/-- The stored flags of STATUS (R37). BUSY is the view of the engine state (R31). -/
structure Status where
  /-- DONE, bit 1. -/
  done : Bool
  /-- ERR, bit 2. -/
  err : Bool
  /-- WIGN, bit 3. -/
  wign : Bool
  /-- ERRCODE, bits 11:8. -/
  errCode : BitVec 4
  deriving DecidableEq, Repr

/-- The state of the block: engine, flags, control registers and coefficient register files (R31 to R48). -/
structure Block where
  engine : Engine
  /-- CTRL.IRQ_EN, the one stored bit of CTRL (R35, R36). -/
  irqEn : Bool
  status : Status
  cmd : Word
  srcBase : Word
  dstBase : Word
  tmpBase : Word
  width : Word
  height : Word
  srcLen : Word
  radius : Word
  param0 : Word
  param1 : Word
  convOffset : Word
  /-- M[0..19], the accumulator matrix (R45). -/
  m : ColorMatrix
  /-- N[0..19], the operand matrix (R46). -/
  n : ColorMatrix
  /-- K[0..8], the kernel (R48). -/
  k : ConvKernel
  deriving DecidableEq, Repr

/-- What the outside world does to the block, one move each (R109, R262). -/
inductive HostOp where
  /-- A store of `bytes` bytes of `v` to host address `addr` in the register window (WR). -/
  | regWrite (addr bytes : Nat) (v : Word)
  /-- A load of `bytes` bytes from host address `addr` in the register window (RD). -/
  | regRead (addr bytes : Nat)
  /-- A store of a word to system memory (MEMW). -/
  | memWrite (addr : Nat) (v : Word)
  /-- A load of a word from system memory (MEMR). -/
  | memRead (addr : Nat)
  /-- A store of one byte to system memory (R74, R87). -/
  | memWriteByte (addr : Nat) (v : Byte)
  /-- A load of one byte from system memory (R74). -/
  | memReadByte (addr : Nat)
  /-- WAIT: repeat `RD STATUS` until BUSY reads 0 (R110). -/
  | wait
  /-- Wait until `irq` is 1 (R262, "poll or wait for irq"). -/
  | waitIrq
  /-- The reset input `rst` is asserted and released (R280; log 9). -/
  | rst
  deriving DecidableEq, Repr

/-- Whose move is next while the engine is BUSY (R129; log 1). -/
inductive Turn where
  | engine
  | host
  deriving DecidableEq, Repr

/-- The machine. `config` is never changed; `host`, `schedule`, `reads` and `draws` are the model's own fields. -/
structure State where
  /-- MEM_SIZE and REG_BASE (R11, R51). -/
  config : Config
  block : Block
  /-- System memory (R70), not block state (R52). -/
  mem : Memory
  /-- The moves of the outside world still to come, in order (log 10). -/
  host : List HostOp
  /-- Whose turn it is while BUSY; when it is used up the engine moves (R129's fairness; log 1). -/
  schedule : List Turn
  /-- What the host has read, newest first (log 10). -/
  reads : List Word
  /-- How many free values have been drawn (R86, R283; log 18). -/
  draws : Nat
  deriving DecidableEq, Repr

/-- No fault: the block has no stuck state, its errors are ordinary steps, and a run outside the spec is refused (R268). -/
inductive Fault where
  deriving DecidableEq, Repr

/-- A run that is outside the spec, refused as R268 asks. -/
inductive Refusal where
  /-- An instruction without a meaning yet: no arm of `exec` answers it. Safe. -/
  | notModelled (mnemonic : String)
  /-- A host access to the register window that is not an aligned 32-bit one (R77): raised by the host's register
  operations. Safe. -/
  | nonWordRegisterAccess
  /-- A register access at a host address outside the 4096-byte window (R33, R268): raised by the host's register
  operations. Safe. -/
  | outsideRegisterWindow
  /-- A host write to a byte of the SRC, DST or TMP region of the running image command (R87): raised by the host's
  memory writes. Safe. -/
  | hostWriteToRunningRegion
  /-- A host access to system memory that is not inside 0 to MEM_SIZE - 1, so outside the table of R262 (R70, R71, R268):
  raised by the host's memory operations, with nothing read or written. Safe (log 23). -/
  | outsideMemory
  deriving DecidableEq, Repr

/-- The identity matrix, the reset value of M and N (R45, R46). -/
def ColorMatrix.identity : ColorMatrix :=
  #v[0x00010000, 0, 0, 0, 0,
     0, 0x00010000, 0, 0, 0,
     0, 0, 0x00010000, 0, 0,
     0, 0, 0, 0x00010000, 0]

/-- The reset value of K: only K[4] is 1.0 (R48). -/
def ConvKernel.identity : ConvKernel := #v[0, 0, 0, 0, 0x00010000, 0, 0, 0, 0]

/-- STATUS = 0 but for BUSY (R280). -/
def Status.reset : Status := { done := false, err := false, wign := false, errCode := 0 }

/-- Every piece of block state at its reset value (R33, R52, R280). -/
def Block.reset : Block where
  engine := .idle
  irqEn := false
  status := Status.reset
  cmd := 0x00000000
  srcBase := 0x00000000
  dstBase := 0x00000000
  tmpBase := 0x00000000
  width := 0x00000000
  height := 0x00000000
  srcLen := 0x00000000
  radius := 0x00000005
  param0 := 0x00010000
  param1 := 0x00000000
  convOffset := 0x00000000
  m := ColorMatrix.identity
  n := ColorMatrix.identity
  k := ConvKernel.identity

/-- The machine right after reset: the block as R280 says, nothing listed in memory (log 6), no host move to come
(log 12), on the platform of log 2. -/
def State.reset : State where
  config := Config.default
  block := Block.reset
  mem := []
  host := []
  schedule := []
  reads := []
  draws := 0

end Sys2Proof.Machine
end

