-- ==== Sys2Proof/Machine/Flags.lean ====
section
/-! DEFINITION. The flags of STATUS and CTRL (10_state.md R35 to R39), the interrupt output (60_exceptions.md R256), and
the two events that change the flags: acceptance of a START (R121) and completion (R127). -/

namespace Sys2Proof.Machine

/-- STATUS.BUSY, the view of the engine state (R31, R37). -/
def Block.busy (b : Block) : Bool :=
  match b.engine with
  | .idle => false
  | .busy _ => true

/-- The code an error reports in ERRCODE (R250). -/
def ErrorCode.bits : ErrorCode → BitVec 4
  | .invalidInput => 1
  | .allocationFailure => 2
  | .illegalCommand => 3

/-- A flag as one bit. -/
def flagBit (b : Bool) : BitVec 1 := BitVec.ofBool b

/-- What a read of STATUS returns: BUSY 0, DONE 1, ERR 2, WIGN 3, zeros 7:4, ERRCODE 11:8, zeros 31:12 (R37). -/
def statusWord (b : Block) : Word :=
  (0 : BitVec 20) ++ b.status.errCode ++ (0 : BitVec 4) ++
    flagBit b.status.wign ++ flagBit b.status.err ++ flagBit b.status.done ++ flagBit b.busy

/-- What a read of CTRL returns: `zext(IRQ_EN) << 1` (R35). -/
def ctrlWord (b : Block) : Word := (0 : BitVec 30) ++ flagBit b.irqEn ++ (0 : BitVec 1)

/-- The interrupt output: `irq = CTRL.IRQ_EN and (STATUS.DONE or STATUS.ERR)` (R256). -/
def irq (b : Block) : Bool := b.irqEn && (b.status.done || b.status.err)

/-- A write of `w` to STATUS: each of DONE, ERR (with ERRCODE) and WIGN is cleared by a 1 in its bit (R37). -/
def clearStatus (w : Word) (f : Status) : Status :=
  { done := f.done && !w.getLsbD 1
    err := f.err && !w.getLsbD 2
    wign := f.wign && !w.getLsbD 3
    errCode := if w.getLsbD 2 then 0 else f.errCode }

/-- The flags after acceptance of a START: DONE, ERR and ERRCODE are cleared, WIGN stays (R121). -/
def acceptedStatus (f : Status) : Status := { f with done := false, err := false, errCode := 0 }

/-- The flags after completion: DONE on success, ERR and ERRCODE on failure, WIGN stays (R127). -/
def completedStatus (code : Option ErrorCode) (f : Status) : Status :=
  match code with
  | none => { f with done := true }
  | some e => { f with err := true, errCode := e.bits }

end Sys2Proof.Machine
end

