-- ==== Sys2Proof/Machine/Operands.lean ====
section
/-! DEFINITION. The arithmetic of 00_scope.md R13 to R19, the operand formats of 30_encoding.md R104 to R106, and the
pixel format and image layout of 20_memory.md R73 and R75. All arithmetic is on unbounded integers (R13). -/

namespace Sys2Proof.Machine

/-- `sext_32` (R13). -/
def sext (w : Word) : Int := w.toInt

/-- `zext_32` (R13), as an integer. -/
def zext (w : Word) : Int := w.toNat

/-- Writing an integer into a 32-bit register stores it modulo 2^32 (R13, R17). -/
def toWord (n : Int) : Word := BitVec.ofInt 32 n

/-- `sat32` (R14). -/
def sat32 (n : Int) : Int := min (2 ^ 31 - 1) (max (-2 ^ 31) n)

/-- `clamp(n, lo, hi)` (R14). -/
def clamp (n lo hi : Int) : Int := min hi (max lo n)

/-- `clamp8` (R14). -/
def clamp8 (n : Int) : Int := clamp n 0 255

/-- `rha(p, q)`: `p / q` rounded to the nearest integer, ties away from zero, for `q > 0` (R15). -/
def rha (p : Int) (q : Nat) : Int :=
  let magnitude : Int := ((2 * p.natAbs + q) / (2 * q) : Nat)
  if p < 0 then -magnitude else magnitude

/-- `ONE`, the Q16 value 1.0 (R16). -/
def one : Int := 65536

/-- `rnd16`: a Q32 product rounded to Q16 (R16). -/
def rnd16 (p : Int) : Int := rha p 65536

/-- `q16(x)` for the rational `x = num / den` (R16, R105): the host's encoding of a decimal literal. -/
def q16 (num : Int) (den : Nat) : Int := rha (num * 65536) den

/-- `out8`: a Q16 accumulator converted to a channel byte (R16). -/
def out8 (acc : Int) : Byte := BitVec.ofInt 8 (clamp8 (rha acc 65536))

/-! ### Coefficients (R18, R104) -/

/-- The position `5*i + j` of row `i`, column `j` (R18). -/
def coeffIndex (i : Fin 4) (j : Fin 5) : Fin 20 := ⟨5 * i.val + j.val, by omega⟩

/-- The coefficient in row `i`, column `j`, as a signed Q16 integer (R17, R18). -/
def coeff (m : ColorMatrix) (i : Fin 4) (j : Fin 5) : Int := sext m[coeffIndex i j]

/-- Storing 20 integers into a matrix register file (R17). -/
def storeMatrix (v : Vector Int 20) : ColorMatrix := Vector.ofFn fun t => toWord v[t]

/-- The kernel coefficient `K[t]` as a signed Q16 integer (R17, R48). -/
def kernelCoeff (k : ConvKernel) (t : Fin 9) : Int := sext k[t]

/-! ### Pixels (R73) -/

/-- The four channels of a pixel, `(R, G, B, A)` (R17). -/
structure Pixel where
  r : Byte
  g : Byte
  b : Byte
  a : Byte
  deriving DecidableEq, Repr

/-- The colour channels. -/
inductive Channel where
  | red
  | green
  | blue
  deriving DecidableEq, Repr

/-- `px(w)`: A = w[31:24], R = w[23:16], G = w[15:8], B = w[7:0] (R73). -/
def px (w : Word) : Pixel :=
  { r := w.extractLsb' 16 8, g := w.extractLsb' 8 8, b := w.extractLsb' 0 8, a := w.extractLsb' 24 8 }

/-- `pack(R, G, B, A) = A ++ R ++ G ++ B` (R73). -/
def pack (p : Pixel) : Word := p.a ++ p.r ++ p.g ++ p.b

/-- `channel_c(px)` for a colour channel, zero-extended (R106). -/
def channel (c : Channel) (p : Pixel) : Nat :=
  match c with
  | .red => p.r.toNat
  | .green => p.g.toNat
  | .blue => p.b.toNat

/-- A pixel from its three colour channels and its alpha. -/
def pixelOf (f : Channel → Byte) (a : Byte) : Pixel := { r := f .red, g := f .green, b := f .blue, a := a }

/-! ### Image layout (R43, R75) -/

/-- `W = sext_32(WIDTH)` as a count, 0 where it is not positive (R43). -/
def imageWidth (b : Block) : Nat := (sext b.width).toNat

/-- `H = sext_32(HEIGHT)` as a count, 0 where it is not positive (R43). -/
def imageHeight (b : Block) : Nat := (sext b.height).toNat

/-- `addr(base, x, y) = base + 4 * (y * W + x)` (R75). -/
def pixelAddr (base : Word) (w x y : Nat) : Nat := base.toNat + 4 * (y * w + x)

/-- The pixels of a W × H image, row by row (R75, R76). -/
def pixelCoords (w h : Nat) : List (Nat × Nat) :=
  (List.range h).flatMap fun y => (List.range w).map fun x => (x, y)

/-- `clamp(i, 0, n - 1)`: the nearest index inside a row or column of `n` pixels (R178, R192). -/
def clampIndex (i : Int) (n : Nat) : Nat := (clamp i 0 ((n : Int) - 1)).toNat

/-- The radius BLUR_APPLY uses: `clamp(sext_32(RADIUS), 1, 10)` (R191). -/
def blurRadius (b : Block) : Nat := (clamp (sext b.radius) 1 10).toNat

end Sys2Proof.Machine
end

