-- ==== Sys2Proof/Machine/Ops.lean ====
section
/-! DEFINITION. The shared operations: system memory (20_memory.md R70 to R75), starting, checking and completing a
command (40_command_lifecycle.md R120 to R127). The block has no trap entry (R258): reporting an error, `complete`
with a code, is what stands in its place, and there is no return (R259). -/

namespace Sys2Proof.Machine

/-! ### System memory -/

/-- DESIGN CHOICE (log 6): what a byte of memory that nothing has written reads as; R284 leaves it to the platform. -/
def unlistedByte : Byte := 0

/-- The canonical form: addresses strictly rising and no entry equal to what an unlisted address reads as. -/
abbrev Memory.wf (m : Memory) : Prop :=
  (m.map Prod.fst).Pairwise (· < ·) ∧ ∀ c ∈ m, c.2 ≠ unlistedByte

/-- The byte at an address. -/
def Memory.readByte : Memory → Nat → Byte
  | [], _ => unlistedByte
  | (b, v) :: rest, a => if b = a then v else Memory.readByte rest a

/-- An entry put in its place in the sorted list. -/
def Memory.insertByte : Memory → Nat → Byte → Memory
  | [], a, v => [(a, v)]
  | (b, u) :: rest, a, v =>
    if a < b then (a, v) :: (b, u) :: rest
    else if a = b then (a, v) :: rest
    else (b, u) :: Memory.insertByte rest a v

/-- Storing a byte, keeping the canonical form. -/
def Memory.writeByte (m : Memory) (a : Nat) (v : Byte) : Memory :=
  if v = unlistedByte then m.filter (fun c => c.1 ≠ a) else Memory.insertByte m a v

/-- `MemRead(a, 4)`, little-endian (R74). -/
def Memory.readWord (m : Memory) (a : Nat) : Word :=
  Memory.readByte m (a + 3) ++ Memory.readByte m (a + 2) ++ Memory.readByte m (a + 1) ++ Memory.readByte m a

/-- `MemWrite(a, 4, w)`, little-endian (R74). -/
def Memory.writeWord (m : Memory) (a : Nat) (w : Word) : Memory :=
  Memory.writeByte (Memory.writeByte (Memory.writeByte (Memory.writeByte m
    a (w.extractLsb' 0 8)) (a + 1) (w.extractLsb' 8 8)) (a + 2) (w.extractLsb' 16 8)) (a + 3) (w.extractLsb' 24 8)

/-- The word writes of a command, performed in the order listed. -/
def Memory.writeWords (m : Memory) (ws : List (Nat × Word)) : Memory :=
  ws.foldl (fun m w => Memory.writeWord m w.1 w.2) m

/-- The pixel `(x, y)` of the image of width `w` at `base` (R73, R75). -/
def readPixel (m : Memory) (base : Word) (w x y : Nat) : Pixel := px (Memory.readWord m (pixelAddr base w x y))

/-- The word writes that store the pixels `f x y` of a W × H image at `base` (R75, R81). -/
def imageWrites (base : Word) (w h : Nat) (f : Nat → Nat → Pixel) : List (Nat × Word) :=
  (pixelCoords w h).map fun c => (pixelAddr base w c.1 c.2, pack (f c.1 c.2))

/-! ### The input checks (R122 to R125) -/

/-- `n = 4 * W * H`, exact (R123). -/
def regionBytes (b : Block) : Int := 4 * sext b.width * sext b.height

/-- A region `[base, base + n)` that is misaligned or not inside memory (R123 to R125). -/
def regionUnusable (c : Config) (base : Word) (n : Int) : Bool :=
  base.toNat % 4 ≠ 0 || (c.memSize : Int) < zext base + n

/-- `[a, a + n)` overlaps `[b, b + n)`: `a < b + n` and `b < a + n` (R124). -/
def regionsOverlap (a b : Word) (n : Int) : Bool := zext a < zext b + n && zext b < zext a + n

/-- R122 (b): the dimensions and the length. -/
def dimensionsBad (b : Block) : Bool :=
  sext b.width ≤ 0 || sext b.height ≤ 0 || zext b.srcLen ≠ sext b.width * sext b.height

/-- R124: the destination region. -/
def destinationBad (c : Config) (b : Block) : Bool :=
  regionUnusable c b.dstBase (regionBytes b) || regionsOverlap b.dstBase b.srcBase (regionBytes b)

/-- R125: the intermediate region. -/
def intermediateBad (c : Config) (b : Block) : Bool :=
  regionUnusable c b.tmpBase (regionBytes b) || regionsOverlap b.tmpBase b.srcBase (regionBytes b) ||
    regionsOverlap b.tmpBase b.dstBase (regionBytes b)

/-- The checks of an image command in the order of R122, the first that fails giving the code; the intermediate region
is checked where the command uses one. -/
def imageCheck (usesTmp : Bool) (c : Config) (b : Block) : Option ErrorCode :=
  if dimensionsBad b then some .invalidInput
  else if regionUnusable c b.srcBase (regionBytes b) then some .invalidInput
  else if destinationBad c b then some .allocationFailure
  else if usesTmp && intermediateBad c b then some .allocationFailure
  else none

/-! ### Start and completion -/

/-- Acceptance of a START while IDLE (R121): the command word is latched, BUSY set, DONE, ERR and ERRCODE cleared. -/
def acceptStart (b : Block) : Block :=
  { b with engine := .busy b.cmd, status := acceptedStatus b.status }

/-- Completion of a command (R127): the engine is IDLE, DONE is set or ERR with its code. Reporting an error is this
with a code: no other state is saved and control goes nowhere (R254, R258). -/
def complete (code : Option ErrorCode) (s : State) : State :=
  { s with block := { s.block with engine := .idle, status := completedStatus code s.block.status } }

/-- A command that cannot fail (R130): its effect on the block, then completion. -/
def runAlgebra (effect : Block → Block) (s : State) : Host.Outcome State Fault Refusal :=
  .next (complete none { s with block := effect s.block })

/-- An image command: the checks, then either an error with nothing written (R126) or all its writes and success. -/
def runImage (usesTmp : Bool) (writes : Block → Memory → List (Nat × Word)) (s : State) :
    Host.Outcome State Fault Refusal :=
  match imageCheck usesTmp s.config s.block with
  | some e => .next (complete (some e) s)
  | none => .next (complete none { s with mem := Memory.writeWords s.mem (writes s.block s.mem) })

end Sys2Proof.Machine
end

