-- ==== Sys2Proof/Machine/Convolution.lean ====
section
/-! DEFINITION. CONV_APPLY (43_convolution.md). -/

namespace Sys2Proof.Machine

/-- Clamp-to-edge sampling: the pixel nearest to `(x, y)` in the W × H image at `base` (R178). -/
def sampleClamped (mem : Memory) (base : Word) (w h : Nat) (x y : Int) : Pixel :=
  readPixel mem base w (clampIndex x w) (clampIndex y h)

/-- The exact Q16 accumulator: the offset plus the nine products, `K[(dy+1)*3 + (dx+1)]` weighting the sample at
`(dx, dy)`, not mirrored (R175, R176, R177). -/
def convAcc (k : ConvKernel) (off : Int) (f : (dx dy : Int) → Nat) : Int :=
  off +
    (kernelCoeff k 0 * f (-1) (-1) + kernelCoeff k 1 * f 0 (-1) + kernelCoeff k 2 * f 1 (-1)) +
    (kernelCoeff k 3 * f (-1) 0 + kernelCoeff k 4 * f 0 0 + kernelCoeff k 5 * f 1 0) +
    (kernelCoeff k 6 * f (-1) 1 + kernelCoeff k 7 * f 0 1 + kernelCoeff k 8 * f 1 1)

/-- The output pixel `(x, y)`: each colour channel from the nine samples of that channel, alpha copied from the source
pixel (R175, R179, R181). -/
def convPixel (b : Block) (mem : Memory) (x y : Nat) : Pixel :=
  pixelOf
    (fun c => out8 (convAcc b.k (sext b.convOffset) fun dx dy =>
      channel c (sampleClamped mem b.srcBase (imageWidth b) (imageHeight b) (x + dx) (y + dy))))
    (readPixel mem b.srcBase (imageWidth b) x y).a

/-- The writes of CONV_APPLY: every word of DST (R175, R81). -/
def convApplyWrites (b : Block) (mem : Memory) : List (Nat × Word) :=
  imageWrites b.dstBase (imageWidth b) (imageHeight b) (convPixel b mem)

/-- CONV_APPLY: the 3×3 kernel applied to SRC into DST (R175). -/
def execConvApply (s : State) : Host.Outcome State Fault Refusal := runImage false convApplyWrites s

end Sys2Proof.Machine
end

