-- ==== Sys2Proof/Machine/BoxBlur.lean ====
section
/-! DEFINITION. BLUR_APPLY (44_box_blur.md). -/

namespace Sys2Proof.Machine

/-- The sum over the window of `2r + 1` samples at offsets -r to r (R192, R194). -/
def windowSum (r : Nat) (f : Int → Nat) : Nat :=
  ((List.range (2 * r + 1)).map fun i : Nat => f ((i : Int) - (r : Int))).sum

/-- The truncating mean over the window; the divisor is always `2r + 1` (R192, R194). -/
def windowMean (r : Nat) (f : Int → Nat) : Nat := windowSum r f / (2 * r + 1)

/-- A channel of the horizontal pass's result `h[x, y]` (R192). -/
def blurHorizontal (b : Block) (mem : Memory) (c : Channel) (x y : Nat) : Nat :=
  windowMean (blurRadius b) fun dx =>
    channel c (sampleClamped mem b.srcBase (imageWidth b) (imageHeight b) (x + dx) y)

/-- A channel of the vertical pass's result, from the horizontal pass's values (R194, R196; log 20). -/
def blurVertical (b : Block) (mem : Memory) (c : Channel) (x y : Nat) : Nat :=
  windowMean (blurRadius b) fun dy => blurHorizontal b mem c x (clampIndex (y + dy) (imageHeight b))

/-- The TMP pixel `(x, y)`, alpha 255 (R193, R195). -/
def blurTmpPixel (b : Block) (mem : Memory) (x y : Nat) : Pixel :=
  pixelOf (fun c => BitVec.ofNat 8 (blurHorizontal b mem c x y)) 255

/-- The DST pixel `(x, y)`, alpha 255 (R194, R195). -/
def blurDstPixel (b : Block) (mem : Memory) (x y : Nat) : Pixel :=
  pixelOf (fun c => BitVec.ofNat 8 (blurVertical b mem c x y)) 255

/-- The writes of BLUR_APPLY: every word of TMP, then every word of DST (R190, R80, R81). -/
def blurApplyWrites (b : Block) (mem : Memory) : List (Nat × Word) :=
  imageWrites b.tmpBase (imageWidth b) (imageHeight b) (blurTmpPixel b mem) ++
    imageWrites b.dstBase (imageWidth b) (imageHeight b) (blurDstPixel b mem)

/-- BLUR_APPLY: the horizontal mean of SRC into TMP and the vertical mean of that into DST (R190). -/
def execBlurApply (s : State) : Host.Outcome State Fault Refusal := runImage true blurApplyWrites s

end Sys2Proof.Machine
end

