-- ==== Sys2Proof/Machine/MatrixAlgebra.lean ====
section
/-! DEFINITION. The matrix algebra commands M_IDENT, N_SAT, N_SCALEOFF and M_COMPOSE (41_matrix_algebra.md). -/

namespace Sys2Proof.Machine

/-- `RW_Q = q16(0.213)` (R136). -/
def lumaR : Int := 13959

/-- `GW_Q = q16(0.715)` (R136). -/
def lumaG : Int := 46858

/-- `BW_Q = q16(0.072)` (R136). -/
def lumaB : Int := 4719

/-- `identity()` as integers (R139). -/
def identityMatrix : Vector Int 20 :=
  #v[65536, 0, 0, 0, 0,
     0, 65536, 0, 0, 0,
     0, 0, 65536, 0, 0,
     0, 0, 0, 65536, 0]

/-- `wX = sat32(rnd16(X_Q * inv))` with `inv = 65536 - s` (R137). -/
def weightTerm (luma s : Int) : Int := sat32 (rnd16 (luma * (65536 - s)))

/-- `saturation(s)` for the Q16 integer `s` (R137). -/
def saturationMatrix (s : Int) : Vector Int 20 :=
  let wR := weightTerm lumaR s
  let wG := weightTerm lumaG s
  let wB := weightTerm lumaB s
  #v[sat32 (wR + s), wG,             wB,             0,     0,
     wR,             sat32 (wG + s), wB,             0,     0,
     wR,             wG,             sat32 (wB + s), 0,     0,
     0,              0,              0,              65536, 0]

/-- The Q16 translate `t` of `scaleOffset` (R138). -/
def translateTerm (sc ex : Int) : Int := sat32 (rha ((65536 - sc) * 255) 2 + ex)

/-- `scaleOffset(scale, extraOffset)` for the Q16 integers `sc` and `ex` (R138). -/
def scaleOffsetMatrix (sc ex : Int) : Vector Int 20 :=
  let t := translateTerm sc ex
  #v[sc, 0,  0,  0,     t,
     0,  sc, 0,  0,     t,
     0,  0,  sc, 0,     t,
     0,  0,  0,  65536, 0]

/-- The exact Q32 sum `p` of row `i`, column `j` of N · M, with the affine extension of R19 (R140). -/
def composeSum (n m : ColorMatrix) (i : Fin 4) (j : Fin 5) : Int :=
  coeff n i 0 * coeff m 0 j + coeff n i 1 * coeff m 1 j + coeff n i 2 * coeff m 2 j + coeff n i 3 * coeff m 3 j +
    (if j = 4 then coeff n i 4 * 65536 else 0)

/-- The row of position `t` (R18). -/
def coeffRow (t : Fin 20) : Fin 4 := ⟨t.val / 5, by omega⟩

/-- The column of position `t` (R18). -/
def coeffCol (t : Fin 20) : Fin 5 := ⟨t.val % 5, by omega⟩

/-- `compose(existing, next) = next · existing`: every coefficient from the old matrices, rounded once to Q16 and
saturated (R140). -/
def composeMatrix (n m : ColorMatrix) : ColorMatrix :=
  Vector.ofFn fun t => toWord (sat32 (rnd16 (composeSum n m (coeffRow t) (coeffCol t))))

/-- M_IDENT: M becomes the identity (R139). -/
def execMIdent (s : State) : Host.Outcome State Fault Refusal :=
  runAlgebra (fun b => { b with m := storeMatrix identityMatrix }) s

/-- N_SAT: N becomes the saturation matrix of PARAM0 (R137). -/
def execNSat (s : State) : Host.Outcome State Fault Refusal :=
  runAlgebra (fun b => { b with n := storeMatrix (saturationMatrix (sext b.param0)) }) s

/-- N_SCALEOFF: N becomes the contrast matrix of PARAM0 and PARAM1 (R138). -/
def execNScaleOff (s : State) : Host.Outcome State Fault Refusal :=
  runAlgebra (fun b => { b with n := storeMatrix (scaleOffsetMatrix (sext b.param0) (sext b.param1)) }) s

/-- M_COMPOSE: M becomes N · M (R140). -/
def execMCompose (s : State) : Host.Outcome State Fault Refusal :=
  runAlgebra (fun b => { b with m := composeMatrix b.n b.m }) s

end Sys2Proof.Machine
end

