-- ==== Sys2Proof/Machine/MatrixApply.lean ====
section
/-! DEFINITION. MAT_APPLY (42_matrix_apply.md). -/

namespace Sys2Proof.Machine

/-- The exact Q16 accumulator of row `i` for a pixel (R161). -/
def matrixAcc (m : ColorMatrix) (p : Pixel) (i : Fin 4) : Int :=
  coeff m i 0 * p.r.toNat + coeff m i 1 * p.g.toNat + coeff m i 2 * p.b.toNat + coeff m i 3 * p.a.toNat + coeff m i 4

/-- A pixel transformed by the matrix: each of the four sums rounded and clamped, alpha included (R160, R162). -/
def matrixPixel (m : ColorMatrix) (p : Pixel) : Pixel :=
  { r := out8 (matrixAcc m p 0), g := out8 (matrixAcc m p 1), b := out8 (matrixAcc m p 2), a := out8 (matrixAcc m p 3) }

/-- The writes of MAT_APPLY: every word of DST (R160, R81). -/
def matApplyWrites (b : Block) (mem : Memory) : List (Nat × Word) :=
  imageWrites b.dstBase (imageWidth b) (imageHeight b) fun x y =>
    matrixPixel b.m (readPixel mem b.srcBase (imageWidth b) x y)

/-- MAT_APPLY: every pixel of SRC transformed by M into DST (R160). -/
def execMatApply (s : State) : Host.Outcome State Fault Refusal := runImage false matApplyWrites s

end Sys2Proof.Machine
end

