-- ==== Sys2Proof/Machine/Nop.lean ====
section
/-! DEFINITION. NOP (40_command_lifecycle.md R128). -/

namespace Sys2Proof.Machine

/-- NOP: nothing but completion with DONE (R128). -/
def execNop (s : State) : Host.Outcome State Fault Refusal := runAlgebra id s

end Sys2Proof.Machine
end

