-- ==== Sys2Proof/Machine/Dispatch.lean ====
section
/-! DEFINITION. The single dispatch on the decoded command (40_command_lifecycle.md R120, R132): the check, execute and
complete phases of the command, as one engine step (R129; log 3). -/

namespace Sys2Proof.Machine

def exec (i : Instr) (s : State) : Host.Outcome State Fault Refusal :=
  match i with
  | .nop => Sys2Proof.Machine.execNop s
  | .mIdent => Sys2Proof.Machine.execMIdent s
  | .nSat => Sys2Proof.Machine.execNSat s
  | .nScaleOff => Sys2Proof.Machine.execNScaleOff s
  | .mCompose => Sys2Proof.Machine.execMCompose s
  | .matApply => Sys2Proof.Machine.execMatApply s
  | .convApply => Sys2Proof.Machine.execConvApply s
  | .blurApply => Sys2Proof.Machine.execBlurApply s

end Sys2Proof.Machine
end

