-- ==== Sys2Proof/Machine/Engine.lean ====
section
/-! DEFINITION. The engine's move (40_command_lifecycle.md R120, R129) and what a running command will write, which the
host can see early (20_memory.md R86) or find after a reset (70_reset_and_hazards.md R283). -/

namespace Sys2Proof.Machine

/-- The engine's move: decode the latched word, then check, execute and complete it; a word that encodes no command
completes with IllegalCommand (R101). An IDLE engine does nothing (R131). -/
def engineStep (s : State) : Host.Outcome State Fault Refusal :=
  match s.block.engine with
  | .idle => .next s
  | .busy cur =>
    match decode cur with
    | .ok i => exec i s
    | .error _ => .next (complete (some .illegalCommand) s)

/-- The word writes a command performs from this state: none where it accesses no memory (R80) or its check fails
(R126). -/
def commandWrites (i : Instr) (s : State) : List (Nat × Word) :=
  match i with
  | .nop => []
  | .mIdent => []
  | .nSat => []
  | .nScaleOff => []
  | .mCompose => []
  | .matApply => if imageCheck false s.config s.block = none then matApplyWrites s.block s.mem else []
  | .convApply => if imageCheck false s.config s.block = none then convApplyWrites s.block s.mem else []
  | .blurApply => if imageCheck true s.config s.block = none then blurApplyWrites s.block s.mem else []

/-- The word writes of the running command; none while IDLE. -/
def pendingWrites (s : State) : List (Nat × Word) :=
  match s.block.engine with
  | .idle => []
  | .busy cur =>
    match decode cur with
    | .ok i => commandWrites i s
    | .error _ => []

/-- The writes among `ws` that the engine has already performed at this moment, a FREE VALUE for each word
(R86, R283). -/
def performedNow (s : State) (ws : List (Nat × Word)) : List (Nat × Word) :=
  ws.filter fun w => Config.freeCommit s.draws w.1

/-- The state with those writes performed. The values are final (R81), so performing them early and again at
completion comes to the same (R129). -/
def performSome (s : State) (ws : List (Nat × Word)) : State :=
  { s with mem := Memory.writeWords s.mem (performedNow s ws), draws := s.draws + 1 }

/-- For an image command, whether it uses TMP; none for a command that accesses no memory (R80). -/
def imageUsesTmp : Instr → Option Bool
  | .nop => none
  | .mIdent => none
  | .nSat => none
  | .nScaleOff => none
  | .mCompose => none
  | .matApply => some false
  | .convApply => some false
  | .blurApply => some true

/-- Whether the running command is an image command, and whether it uses TMP. -/
def runningImage (b : Block) : Option Bool :=
  match b.engine with
  | .idle => none
  | .busy cur =>
    match decode cur with
    | .ok i => imageUsesTmp i
    | .error _ => none

/-- The number of bytes of each region of the running command, from WIDTH and HEIGHT (R75). -/
def imageBytes (b : Block) : Nat := 4 * imageWidth b * imageHeight b

/-- `[a, a + len)` meets the region at `base`. -/
def touchesRegion (base : Word) (n a len : Nat) : Bool := a < base.toNat + n && base.toNat < a + len && n ≠ 0

/-- A host write of `len` bytes at `a` meets the SRC, DST or TMP region of the running image command (R87; log 8). -/
def meetsRunningRegion (b : Block) (a len : Nat) : Bool :=
  match runningImage b with
  | none => false
  | some usesTmp =>
    touchesRegion b.srcBase (imageBytes b) a len || touchesRegion b.dstBase (imageBytes b) a len ||
      (usesTmp && touchesRegion b.tmpBase (imageBytes b) a len)

end Sys2Proof.Machine
end

