-- ==== Sys2Proof/Machine/Registers.lean ====
section
/-! DEFINITION. The register window (10_state.md R33 to R48): the map from offsets to registers, reads and the plain
register writes. -/

namespace Sys2Proof.Machine

/-- The registers of R33. -/
inductive Reg where
  | id
  | version
  | ctrl
  | status
  | cmd
  | srcBase
  | dstBase
  | tmpBase
  | width
  | height
  | srcLen
  | radius
  | param0
  | param1
  | convOffset
  | m (i : Fin 20)
  | n (i : Fin 20)
  | k (i : Fin 9)
  /-- A reserved offset: reads 0, writes ignored. -/
  | reserved
  deriving DecidableEq, Repr

/-- The register at a 4-aligned byte offset of the window (R33). -/
def regAt (off : Nat) : Reg :=
  if off = 0x000 then .id
  else if off = 0x004 then .version
  else if off = 0x008 then .ctrl
  else if off = 0x00C then .status
  else if off = 0x010 then .cmd
  else if off = 0x014 then .srcBase
  else if off = 0x018 then .dstBase
  else if off = 0x01C then .tmpBase
  else if off = 0x020 then .width
  else if off = 0x024 then .height
  else if off = 0x028 then .srcLen
  else if off = 0x02C then .radius
  else if off = 0x030 then .param0
  else if off = 0x034 then .param1
  else if off = 0x038 then .convOffset
  else if off < 0x040 then .reserved
  else if h : off < 0x090 then .m ⟨(off - 0x040) / 4, by omega⟩
  else if h : off < 0x0E0 then .n ⟨(off - 0x090) / 4, by omega⟩
  else if h : off < 0x104 then .k ⟨(off - 0x0E0) / 4, by omega⟩
  else .reserved

/-- The offset of a register (R33); of the reserved offsets the first, 0x03C. -/
def regOffset : Reg → Nat
  | .id => 0x000
  | .version => 0x004
  | .ctrl => 0x008
  | .status => 0x00C
  | .cmd => 0x010
  | .srcBase => 0x014
  | .dstBase => 0x018
  | .tmpBase => 0x01C
  | .width => 0x020
  | .height => 0x024
  | .srcLen => 0x028
  | .radius => 0x02C
  | .param0 => 0x030
  | .param1 => 0x034
  | .convOffset => 0x038
  | .m i => 0x040 + 4 * i.val
  | .n i => 0x090 + 4 * i.val
  | .k i => 0x0E0 + 4 * i.val
  | .reserved => 0x03C

/-- The constant of the ID register (R34). -/
def idValue : Word := 0x434D5458

/-- The constant of the VERSION register (R34). -/
def versionValue : Word := 0x00010007

/-- What a read of a register returns; a read changes nothing (R33 to R48, R79). -/
def readReg (b : Block) : Reg → Word
  | .id => idValue
  | .version => versionValue
  | .ctrl => ctrlWord b
  | .status => statusWord b
  | .cmd => b.cmd
  | .srcBase => b.srcBase
  | .dstBase => b.dstBase
  | .tmpBase => b.tmpBase
  | .width => b.width
  | .height => b.height
  | .srcLen => b.srcLen
  | .radius => b.radius
  | .param0 => b.param0
  | .param1 => b.param1
  | .convOffset => b.convOffset
  | .m i => b.m[i]
  | .n i => b.n[i]
  | .k i => b.k[i]
  | .reserved => 0

/-- The RW registers of R33. -/
def isReadWrite : Reg → Bool
  | .id => false
  | .version => false
  | .ctrl => false
  | .status => false
  | .cmd => true
  | .srcBase => true
  | .dstBase => true
  | .tmpBase => true
  | .width => true
  | .height => true
  | .srcLen => true
  | .radius => true
  | .param0 => true
  | .param1 => true
  | .convOffset => true
  | .m _ => true
  | .n _ => true
  | .k _ => true
  | .reserved => false

/-- The block with the full word stored in a RW register; any other register is left alone (R33). -/
def storeReg (b : Block) (w : Word) : Reg → Block
  | .id => b
  | .version => b
  | .ctrl => b
  | .status => b
  | .cmd => { b with cmd := w }
  | .srcBase => { b with srcBase := w }
  | .dstBase => { b with dstBase := w }
  | .tmpBase => { b with tmpBase := w }
  | .width => { b with width := w }
  | .height => { b with height := w }
  | .srcLen => { b with srcLen := w }
  | .radius => { b with radius := w }
  | .param0 => { b with param0 := w }
  | .param1 => { b with param1 := w }
  | .convOffset => { b with convOffset := w }
  | .m i => { b with m := b.m.set i w }
  | .n i => { b with n := b.n.set i w }
  | .k i => { b with k := b.k.set i w }
  | .reserved => b

/-- A write ignored because the engine is BUSY sets WIGN (R40). -/
def ignoreWrite (b : Block) : Block := { b with status := { b.status with wign := true } }

/-- START: accepted while IDLE (R121), ignored with WIGN while BUSY (R40). -/
def applyStart (b : Block) : Block :=
  match b.engine with
  | .idle => acceptStart b
  | .busy _ => ignoreWrite b

/-- A write of `w` to CTRL with bit 2 (SRST) clear: IRQ_EN first, then START where bit 0 is set (R35). -/
def writeCtrl (b : Block) (w : Word) : Block :=
  let b' := { b with irqEn := w.getLsbD 1 }
  if w.getLsbD 0 then applyStart b' else b'

/-- A write of `w` to a register, but for a soft reset: CTRL as R35 says, STATUS as R37 says, a RW register stored
while IDLE and ignored with WIGN while BUSY (R40), any other location ignored (R33). -/
def writeReg (b : Block) (w : Word) (r : Reg) : Block :=
  match r with
  | .ctrl => writeCtrl b w
  | .status => { b with status := clearStatus w b.status }
  | r =>
    if isReadWrite r then
      match b.engine with
      | .idle => storeReg b w r
      | .busy _ => ignoreWrite b
    else b

end Sys2Proof.Machine
end

