-- ==== Sys2Proof/Machine/HostBus.lean ====
section
/-! DEFINITION. The moves of the outside world (30_encoding.md R109, 60_exceptions.md R262): register and memory
accesses, waiting, and reset (70_reset_and_hazards.md R280 to R283). -/

namespace Sys2Proof.Machine

/-- Reset, by `rst` (R280) or by CTRL.SRST (R282): the block takes its reset values; a running command is abandoned,
each word of its DST and TMP regions old or final, a free value (R283); nothing else of memory changes (R284). -/
def resetBlock (s : State) : State :=
  { performSome s (pendingWrites s) with block := Block.reset }

/-- The word the host has read, put on the record of its reads. -/
def recordRead (s : State) (w : Word) : State := { s with reads := w :: s.reads }

/-- A register access the window admits (R77, R33): aligned, 32 bits, inside the 4096 bytes at REG_BASE. -/
def windowOffset (c : Config) (addr bytes : Nat) : Except Refusal Nat :=
  if addr < c.regBase ∨ c.regBase + 4096 ≤ addr then .error .outsideRegisterWindow
  else if bytes ≠ 4 ∨ (addr - c.regBase) % 4 ≠ 0 then .error .nonWordRegisterAccess
  else .ok (addr - c.regBase)

/-- A write of `w` to the register at an offset: a soft reset where it is CTRL with bit 2 set, the rest of the word
ignored (R35, R282), otherwise `writeReg`. -/
def busWrite (s : State) (off : Nat) (w : Word) : State :=
  if regAt off = .ctrl ∧ w.getLsbD 2 = true then resetBlock s
  else { s with block := writeReg s.block w (regAt off) }

/-- The host's store to the register window (WR). -/
def hostRegWrite (s : State) (addr bytes : Nat) (w : Word) : Host.Outcome State Fault Refusal :=
  match windowOffset s.config addr bytes with
  | .error r => .refused r
  | .ok off => .next (busWrite s off w)

/-- The host's load from the register window (RD). -/
def hostRegRead (s : State) (addr bytes : Nat) : Host.Outcome State Fault Refusal :=
  match windowOffset s.config addr bytes with
  | .error r => .refused r
  | .ok off => .next (recordRead s (readReg s.block (regAt off)))

/-- The host's store to system memory of `len` bytes at `addr`: inside memory and not to a region of the running
command, else refused (R70, R87, R268; log 14, log 23). -/
def hostStore (s : State) (addr len : Nat) (store : Memory → Memory) : Host.Outcome State Fault Refusal :=
  if s.config.memSize < addr + len then .refused .outsideMemory
  else if meetsRunningRegion s.block addr len then .refused .hostWriteToRunningRegion
  else .next { s with mem := store s.mem }

/-- The pending word writes that a load of `len` bytes at `addr` can see. -/
def visibleWrites (s : State) (addr len : Nat) : List (Nat × Word) :=
  (pendingWrites s).filter fun w => w.1 < addr + len && addr < w.1 + 4

/-- The host's load from system memory of `len` bytes at `addr`: inside memory, else refused (R70, R268; log 14, log 23).
A word that the running command writes reads as its old or its final value, a free value; a final value stays (R86;
log 4). -/
def hostLoad (s : State) (addr len : Nat) (load : Memory → Word) : Host.Outcome State Fault Refusal :=
  if s.config.memSize < addr + len then .refused .outsideMemory
  else
    let s' := performSome s (visibleWrites s addr len)
    .next (recordRead s' (load s'.mem))

/-- One move of the outside world, the first of `s.host`; with none left the machine waits (R131; log 11). A wait that
is not over stays first in the list. -/
def hostStep (s : State) : Host.Outcome State Fault Refusal :=
  match s.host with
  | [] => .next s
  | .regWrite addr bytes v :: rest => hostRegWrite { s with host := rest } addr bytes v
  | .regRead addr bytes :: rest => hostRegRead { s with host := rest } addr bytes
  | .memWrite addr v :: rest => hostStore { s with host := rest } addr 4 (fun m => Memory.writeWord m addr v)
  | .memRead addr :: rest => hostLoad { s with host := rest } addr 4 (fun m => Memory.readWord m addr)
  | .memWriteByte addr v :: rest => hostStore { s with host := rest } addr 1 (fun m => Memory.writeByte m addr v)
  | .memReadByte addr :: rest =>
    hostLoad { s with host := rest } addr 1 (fun m => (Memory.readByte m addr).setWidth 32)
  | .wait :: rest =>
    let polled := recordRead s (statusWord s.block)
    .next (if s.block.busy then polled else { polled with host := rest })
  | .waitIrq :: rest => .next (if irq s.block then { s with host := rest } else s)
  | .rst :: rest => .next (resetBlock { s with host := rest })

/-- Whose move is next: while IDLE the host's; while BUSY the first of the schedule, and the engine's where the
schedule is used up or the host has no move (R129; log 1). -/
def whoMoves (s : State) : Turn :=
  match s.block.engine with
  | .idle => .host
  | .busy _ =>
    match s.schedule, s.host with
    | .host :: _, _ :: _ => .host
    | _, _ => .engine

/-- The state with this move's turn taken off the schedule, which is read only while BUSY. -/
def takeTurn (s : State) : State :=
  match s.block.engine with
  | .idle => s
  | .busy _ => { s with schedule := s.schedule.tail }

/-- One move of the machine: the engine's or the host's. -/
def moveOf (who : Turn) (s : State) : Host.Outcome State Fault Refusal :=
  match who with
  | .engine => engineStep s
  | .host => hostStep s

/-- Placing a command word so that the very next step runs it: CMD holds it, it is started (R121), and the engine's
turn is next (log 12). -/
def placeCommand (s : State) (w : Word) : State :=
  { s with block := acceptStart { s.block with cmd := w }, schedule := .engine :: s.schedule }

end Sys2Proof.Machine
end

