-- ==== Sys2Proof/Machine/Step.lean ====
section
/-! DEFINITION. One step of the machine: one move of the engine or of the outside world (10_state.md R30, R31). -/

namespace Sys2Proof.Machine

/-- One step (R30, R129). -/
def step (s : State) : Host.Outcome State Fault Refusal := moveOf (whoMoves s) (takeTurn s)

/-- The state in which the very next step runs the command of `nbits` bits `w` (log 12). A command is one 32-bit word
(R108). -/
def State.withFetchWord (s : State) (nbits w : Nat) : State := placeCommand s (BitVec.ofNat 32 (w % 2 ^ nbits))

end Sys2Proof.Machine
end

