-- ==== Sys2Proof/Machine/HostProgram.lean ====
section
/-! DEFINITION. The host's program syntax (30_encoding.md R109 to R111): its bus operations and pseudo-instructions, as
lists of the moves of the outside world. Nothing of the block depends on this file. -/

namespace Sys2Proof.Machine

/-- A decimal literal of the source, `num / den` (R105). -/
abbrev Decimal := Int × Nat

/-- An integer literal. -/
def whole (n : Int) : Decimal := (n, 1)

/-- A literal with hundredths. -/
def cents (n : Int) : Decimal := (n, 100)

/-- A literal with thousandths. -/
def mills (n : Int) : Decimal := (n, 1000)

/-- `q(<decimal>)`: the word of `q16`, taken modulo 2^32 (R105, R109; log 21). -/
def qWord (x : Decimal) : Word := toWord (q16 x.1 x.2)

/-- `WR <reg>, <value>` (R109). -/
def wr (c : Config) (r : Reg) (v : Word) : HostOp := .regWrite (c.regBase + regOffset r) 4 v

/-- `RD <reg>` (R109). -/
def rd (c : Config) (r : Reg) : HostOp := .regRead (c.regBase + regOffset r) 4

/-- `GO <mnemonic>` (R110). -/
def go (c : Config) (i : Instr) : List HostOp := [wr c .cmd (encode i), wr c .ctrl 0x00000001]

/-- `GOI <mnemonic>`: start with IRQ_EN = 1 (R110). -/
def goI (c : Config) (i : Instr) : List HostOp := [wr c .cmd (encode i), wr c .ctrl 0x00000003]

/-- `GO <mnemonic> ; WAIT`. -/
def goWait (c : Config) (i : Instr) : List HostOp := go c i ++ [.wait]

/-- `ACK`: clear DONE, ERR and WIGN (R110). -/
def ack (c : Config) : List HostOp := [wr c .status 0x0000000E]

/-- A soft reset (R111). -/
def softReset (c : Config) : List HostOp := [wr c .ctrl 0x00000004]

/-- `LOADN <m0>, ..., <m19>` (R110). -/
def loadN (c : Config) (v : Vector Decimal 20) : List HostOp :=
  (List.finRange 20).map fun i => wr c (.n i) (qWord v[i])

/-- `LOADM <m0>, ..., <m19>` (R110). -/
def loadM (c : Config) (v : Vector Decimal 20) : List HostOp :=
  (List.finRange 20).map fun i => wr c (.m i) (qWord v[i])

/-- `LOADK <k0>, ..., <k8>` (R110). -/
def loadK (c : Config) (v : Vector Decimal 9) : List HostOp :=
  (List.finRange 9).map fun i => wr c (.k i) (qWord v[i])

/-- `IMAGE <src>, <dst>, <w>, <h>` (R110). DESIGN CHOICE (log 22): a `w`, `h` or `w * h` that does not fit in 32 bits, for
which R13 defines no register write, is written modulo 2^32. -/
def image (c : Config) (src dst : Word) (w h : Nat) : List HostOp :=
  [wr c .srcBase src, wr c .dstBase dst, wr c .width (BitVec.ofNat 32 w), wr c .height (BitVec.ofNat 32 h),
    wr c .srcLen (BitVec.ofNat 32 (w * h))]

/-- `TINT <m0>, ..., <m19>` (R110). -/
def tint (c : Config) (v : Vector Decimal 20) : List HostOp := loadN c v ++ goWait c .mCompose

/-- `SAT <s>` (R110). -/
def sat (c : Config) (s : Decimal) : List HostOp :=
  [wr c .param0 (qWord s)] ++ goWait c .nSat ++ goWait c .mCompose

/-- `SCALEOFF <scale>, <extra>` (R110). -/
def scaleOff (c : Config) (scale extra : Decimal) : List HostOp :=
  [wr c .param0 (qWord scale), wr c .param1 (qWord extra)] ++ goWait c .nScaleOff ++ goWait c .mCompose

end Sys2Proof.Machine
end

