-- ==== Sys2Proof/Safety.lean ====
section
/-! DEFINITION. The invariant of the machine, what a safe run is, and the vocabulary of the statements, written from the
spec's own conditions. -/

namespace Sys2Proof.Machine

/-- What every state of a run from reset keeps, on any legal platform. -/
structure State.Inv (s : State) : Prop where
  /-- 4 ≤ MEM_SIZE ≤ 2^32 and REG_BASE is 4096-aligned (R11). -/
  platform : s.config.wellFormed = true
  /-- Memory is in its canonical form. -/
  canonical : Memory.wf s.mem
  /-- Every listed byte lies inside memory (R71). -/
  inside : ∀ c ∈ s.mem, c.1 < s.config.memSize
  /-- DONE and ERR are never both 1 (R38). -/
  oneOutcome : ¬ (s.block.status.done = true ∧ s.block.status.err = true)
  /-- ERRCODE ≠ 0 exactly when ERR = 1 (R38). -/
  codeIffErr : s.block.status.errCode ≠ 0 ↔ s.block.status.err = true
  /-- Codes 4 to 15 are never produced (R250). -/
  codeLegal : s.block.status.errCode ≤ 3
  /-- BUSY = 1 implies DONE = 0 and ERR = 0 (R38). -/
  busyClear : s.block.busy = true → s.block.status.done = false ∧ s.block.status.err = false
  /-- The latched word is still in CMD, which cannot change while BUSY (R40, R121). -/
  latched : ∀ cur, s.block.engine = .busy cur → cur = s.block.cmd

/-- A step is safe when it is not refused: the host kept its duties (R262, R268). -/
def StepsSafely (s : State) : Prop := ∃ t, step s = .next t

/-! ### The conditions of an image command, from R122 to R125 -/

/-- `n = 4 * W * H` (R123). -/
def imageLen (b : Block) : Int := 4 * b.width.toInt * b.height.toInt

/-- Everything R122 to R124 ask of an image command. -/
structure ImageReady (s : State) : Prop where
  /-- W > 0. -/
  width : 0 < s.block.width.toInt
  /-- H > 0. -/
  height : 0 < s.block.height.toInt
  /-- L = W * H. -/
  length : (s.block.srcLen.toNat : Int) = s.block.width.toInt * s.block.height.toInt
  srcAligned : s.block.srcBase.toNat % 4 = 0
  srcInside : (s.block.srcBase.toNat : Int) + imageLen s.block ≤ s.config.memSize
  dstAligned : s.block.dstBase.toNat % 4 = 0
  dstInside : (s.block.dstBase.toNat : Int) + imageLen s.block ≤ s.config.memSize
  /-- DST does not overlap SRC. -/
  dstApart : (s.block.srcBase.toNat : Int) + imageLen s.block ≤ s.block.dstBase.toNat ∨
    (s.block.dstBase.toNat : Int) + imageLen s.block ≤ s.block.srcBase.toNat

/-- What R125 asks of BLUR_APPLY besides. -/
structure TmpReady (s : State) : Prop where
  tmpAligned : s.block.tmpBase.toNat % 4 = 0
  tmpInside : (s.block.tmpBase.toNat : Int) + imageLen s.block ≤ s.config.memSize
  /-- TMP does not overlap SRC. -/
  srcApart : (s.block.srcBase.toNat : Int) + imageLen s.block ≤ s.block.tmpBase.toNat ∨
    (s.block.tmpBase.toNat : Int) + imageLen s.block ≤ s.block.srcBase.toNat
  /-- TMP does not overlap DST. -/
  dstApart : (s.block.dstBase.toNat : Int) + imageLen s.block ≤ s.block.tmpBase.toNat ∨
    (s.block.tmpBase.toNat : Int) + imageLen s.block ≤ s.block.dstBase.toNat

/-- The check phase of the command passes: nothing to check for the five that touch no memory (R130). -/
def CommandReady (i : Instr) (s : State) : Prop :=
  match imageUsesTmp i with
  | none => True
  | some usesTmp => ImageReady s ∧ (usesTmp = true → TmpReady s)

/-- Address `a` lies in the image region `[base, base + 4 * W * H)` (R75). -/
def InRegion (b : Block) (base : Word) (a : Nat) : Prop :=
  base.toNat ≤ a ∧ (a : Int) < base.toNat + imageLen b

/-- Address `a` lies in a region the command writes: DST, and TMP for BLUR_APPLY (R80). -/
def InOutput (i : Instr) (b : Block) (a : Nat) : Prop :=
  match imageUsesTmp i with
  | none => False
  | some usesTmp => InRegion b b.dstBase a ∨ (usesTmp = true ∧ InRegion b b.tmpBase a)

/-! ### Vocabulary -/

/-- The four channels of a pixel in the order of the matrix rows and columns: R, G, B, A (R18). -/
def chanAt (p : Pixel) : Fin 4 → Byte
  | 0 => p.r
  | 1 => p.g
  | 2 => p.b
  | 3 => p.a

/-- The pixel `(x, y)` of the W × H image at `base` (R75). -/
def pixelOfImage (s : State) (base : Word) (x y : Nat) : Pixel :=
  readPixel s.mem base s.block.width.toInt.toNat x y

/-- `(x, y)` is a pixel of the W × H image: 0 ≤ x < W and 0 ≤ y < H (R75). -/
def InImage (b : Block) (x y : Nat) : Prop := (x : Int) < b.width.toInt ∧ (y : Int) < b.height.toInt

/-- The state after a successful completion that changes nothing else: BUSY clear and DONE set (R127). -/
def doneWith (s : State) (b : Block) : State :=
  { s with block := { b with engine := .idle, status := { b.status with done := true } } }

/-- The state after a failed completion: BUSY clear, ERR set, ERRCODE the code, nothing else changed (R126, R127). -/
def failedWith (s : State) (code : BitVec 4) : State :=
  { s with block := { s.block with engine := .idle, status := { s.block.status with err := true, errCode := code } } }

/-- Every byte of memory outside the command's output regions reads as before. -/
def OnlyOutputChanged (i : Instr) (s t : State) : Prop :=
  ∀ a, ¬ InOutput i s.block a → Memory.readByte t.mem a = Memory.readByte s.mem a

/-- The alpha row is [0, 0, 0, 1.0, 0] (R144, R163). -/
def AlphaRowFixed (m : ColorMatrix) : Prop := ∀ j : Fin 5, coeff m 3 j = if j = 3 then 65536 else 0

/-- The matrix is the identity (R139, R165). -/
def IsIdentity (m : ColorMatrix) : Prop := ∀ (i : Fin 4) (j : Fin 5), coeff m i j = if i.val = j.val then 65536 else 0

/-- Channel `c` has the value `v` in every pixel of the SRC image (R182, R197). -/
def UniformSource (s : State) (c : Channel) (v : Nat) : Prop :=
  ∀ x y, InImage s.block x y → channel c (pixelOfImage s s.block.srcBase x y) = v

/-- `clamp(i, 0, n - 1)` as a pixel index (R178, R192). -/
def edgeClamp (i n : Int) : Nat := (clamp i 0 (n - 1)).toNat

/-- The code the checks give the latched word, in the order of R122 and R255: 0 when all pass. -/
def specCode (cur : Word) (c : Config) (b : Block) : Nat :=
  let op := cur.toNat
  let S : Int := b.srcBase.toNat
  let D : Int := b.dstBase.toNat
  let T : Int := b.tmpBase.toNat
  let n := imageLen b
  if op ≥ 8 then 3
  else if op < 5 then 0
  else if b.width.toInt ≤ 0 ∨ b.height.toInt ≤ 0 then 1
  else if (b.srcLen.toNat : Int) ≠ b.width.toInt * b.height.toInt then 1
  else if S % 4 ≠ 0 ∨ S + n > c.memSize then 1
  else if D % 4 ≠ 0 ∨ D + n > c.memSize ∨ (D < S + n ∧ S < D + n) then 2
  else if op = 7 ∧ (T % 4 ≠ 0 ∨ T + n > c.memSize ∨ (T < S + n ∧ S < T + n) ∨ (T < D + n ∧ D < T + n)) then 2
  else 0

/-- A word that encodes no command: RSVD ≠ 0 or OP ≥ 8 (R101). -/
def EncodesNoCommand (w : Word) : Prop := w.toNat / 16 ≠ 0 ∨ 8 ≤ w.toNat % 16

/-- The engine has the next turn (R129). -/
def EngineTurn (s : State) : Prop :=
  s.block.busy = true ∧ (s.schedule = [] ∨ s.host = [] ∨ ∃ rest, s.schedule = .engine :: rest)

end Sys2Proof.Machine
end

