-- ==== Sys2Proof/Certificates/Slice0/Obligations.lean ====
section
/-! DEFINITION. The statements about the machine, from the numbered rules of the spec. -/

open Sys2Proof Sys2Proof.Machine

/-! ### Reset -/

/-- R280: a reset by the input `rst` gives every register its reset value, deasserts `irq`, and is the state the
machine starts from; ID and VERSION are constants. -/
def Obligations.ResetEstablishesEveryRegisterValue : Prop :=
  ∀ (s : State) (rest : List HostOp), s.host = .rst :: rest → ∃ t, hostStep s = .next t ∧
    t.block = State.reset.block ∧ t.block.engine = .idle ∧ irq t.block = false ∧
    readReg t.block .ctrl = 0 ∧ readReg t.block .status = 0 ∧ readReg t.block .cmd = 0 ∧
    readReg t.block .srcBase = 0 ∧ readReg t.block .dstBase = 0 ∧ readReg t.block .tmpBase = 0 ∧
    readReg t.block .width = 0 ∧ readReg t.block .height = 0 ∧ readReg t.block .srcLen = 0 ∧
    readReg t.block .radius = 5 ∧ readReg t.block .param0 = 0x00010000 ∧ readReg t.block .param1 = 0 ∧
    readReg t.block .convOffset = 0 ∧
    (∀ i : Fin 20, readReg t.block (.m i) = if i.val ∈ [0, 6, 12, 18] then 0x00010000 else 0) ∧
    (∀ i : Fin 20, readReg t.block (.n i) = if i.val ∈ [0, 6, 12, 18] then 0x00010000 else 0) ∧
    (∀ i : Fin 9, readReg t.block (.k i) = if i.val = 4 then 0x00010000 else 0) ∧
    ∀ b, readReg b .id = 0x434D5458 ∧ readReg b .version = 0x00010007

/-- The invariant holds at reset. MEM_SIZE, REG_BASE and the empty memory there are the model's choice (log 2, log 6). -/
def Obligations.ResetSatisfiesTheInvariant : Prop := State.reset.Inv

/-- R282, R35: a CTRL write with bit 2 set acts exactly as `rst`, whatever its other bits, IDLE or BUSY. -/
def Obligations.SoftResetActsAsReset : Prop :=
  ∀ (s : State) (rest : List HostOp) (w : Word), w.getLsbD 2 = true →
    s.host = .regWrite (s.config.regBase + 0x008) 4 w :: rest →
      hostStep s = hostStep { s with host := .rst :: rest } ∧ ∃ t, hostStep s = .next t ∧
        t.block = State.reset.block ∧ t.block.engine = .idle ∧ t.block.status.done = false ∧ t.block.status.err = false

/-- R284: a reset while the engine is IDLE changes no byte of memory. -/
def Obligations.ResetWhileIdleKeepsMemory : Prop :=
  ∀ (s : State) (rest : List HostOp), s.block.engine = .idle → s.host = .rst :: rest →
    ∃ t, hostStep s = .next t ∧ t.mem = s.mem ∧ t.config = s.config ∧ t.reads = s.reads

/-! ### Decoding -/

/-- R102: exactly the eight words of the opcode map encode a command, each its own. -/
def Obligations.DecodingIsTheOpcodeMap : Prop :=
  ∀ (w : Word) (i : Instr), decode w = .ok i ↔ w = match i with
    | .nop => 0x00000000
    | .mIdent => 0x00000001
    | .nSat => 0x00000002
    | .nScaleOff => 0x00000003
    | .mCompose => 0x00000004
    | .matApply => 0x00000005
    | .convApply => 0x00000006
    | .blurApply => 0x00000007

/-- R101, R107: a word is rejected exactly when RSVD ≠ 0 or OP ≥ 8. -/
def Obligations.ReservedWordsEncodeNoCommand : Prop :=
  ∀ w : Word, EncodesNoCommand w ↔ ∃ e, decode w = .error e

/-- R102, R77: words written out from the opcode map, as words and as their four bytes, decode to their commands. -/
def Obligations.WrittenOutWordsDecode : Prop :=
  decode 0x00000000 = .ok .nop ∧ decode 0x00000002 = .ok .nSat ∧ decode 0x00000004 = .ok .mCompose ∧
    decodeBytes [0x05, 0x00, 0x00, 0x00] = some (.ok .matApply, []) ∧
    decodeBytes [0x06, 0x00, 0x00, 0x00] = some (.ok .convApply, []) ∧
    decodeBytes [0x07, 0x00, 0x00, 0x00] = some (.ok .blurApply, []) ∧
    decode 0x00000015 = .error .reservedBits ∧ decode 0x00000008 = .error .reservedOp

/-- Decoding the bytes of a well-formed command gives it back, with the bytes that follow. -/
def Obligations.DecodeUndoesEncode : Prop :=
  ∀ (i : Instr) (rest : List Byte), i.wellFormed = true →
    decode (encode i) = .ok i ∧ decodeBytes (encodeBytes i ++ rest) = some (.ok i, rest)

/-! ### A step -/

/-- R120, R132: when the engine has the turn, a step checks, executes and completes the latched command. -/
def Obligations.EngineTurnRunsTheLatchedCommand : Prop :=
  ∀ (s : State) (cur : Word) (i : Instr), s.block.engine = .busy cur → decode cur = .ok i → EngineTurn s →
    step s = exec i { s with schedule := s.schedule.tail }

/-- R129, R131: while IDLE a step is the first host move, or nothing when there is none; while BUSY it is the first host
move when the host has the turn. -/
def Obligations.HostTurnRunsTheFirstHostMove : Prop :=
  (∀ s : State, s.block.engine = .idle → step s = hostStep s) ∧
    (∀ s : State, s.block.engine = .idle → s.host = [] → step s = .next s) ∧
    ∀ (s : State) (cur : Word) (op : HostOp) (rest : List HostOp) (turns : List Turn),
      s.block.engine = .busy cur → s.host = op :: rest → s.schedule = .host :: turns →
        step s = hostStep { s with schedule := turns }

/-- R101: a word that encodes no command fails with IllegalCommand, changing no register other than STATUS (and the
engine state) and no memory. -/
def Obligations.IllegalCommandFailsChangingOnlyStatus : Prop :=
  ∀ (s : State) (cur : Word), s.block.engine = .busy cur → EncodesNoCommand cur → EngineTurn s →
    step s = .next (failedWith { s with schedule := s.schedule.tail } 3)

/-- A command placed by `withFetchWord` is run by the very next step (log 12: the placing is the model's). -/
def Obligations.PlacedCommandRunsNext : Prop :=
  ∀ (s : State) (i : Instr), step (s.withFetchWord 32 (encode i).toNat) =
    exec i { s with block := acceptStart { s.block with cmd := encode i } }

/-! ### Start and completion -/

/-- R121: a START while IDLE latches CMD, sets BUSY and clears DONE, ERR and ERRCODE; while BUSY it only sets WIGN. The
IRQ_EN bit of the same write is applied in both cases (R35). -/
def Obligations.StartIsAcceptedOnlyWhileIdle : Prop :=
  ∀ (s : State) (rest : List HostOp) (w : Word), w.getLsbD 0 = true → w.getLsbD 2 = false →
    s.host = .regWrite (s.config.regBase + 0x008) 4 w :: rest → ∃ t, hostStep s = .next t ∧ t.mem = s.mem ∧
      t.host = rest ∧
      (s.block.engine = .idle → t.block = { s.block with
        engine := .busy s.block.cmd
        irqEn := w.getLsbD 1
        status := { done := false, err := false, wign := s.block.status.wign, errCode := 0 } }) ∧
      (s.block.engine = .idle → s.block.status.wign = false → readReg t.block .status = 0x00000001) ∧
      ∀ cur, s.block.engine = .busy cur → t.block = { s.block with
        irqEn := w.getLsbD 1
        status := { s.block.status with wign := true } }

/-- R126, R127, R268: no command ever stops; each ends IDLE with DONE, or with ERR and code 1 or 2 and no byte written,
and changes nothing outside the block and memory. -/
def Obligations.EveryCommandCompletes : Prop :=
  ∀ (i : Instr) (s : State), ∃ t, exec i s = .next t ∧ t.block.engine = .idle ∧
    t = { s with block := t.block, mem := t.mem } ∧ t.block.status.wign = s.block.status.wign ∧
    ((t.block.status.done = true ∧ t.block.status.err = s.block.status.err ∧
        t.block.status.errCode = s.block.status.errCode) ∨
      (t = failedWith s 1 ∨ t = failedWith s 2))

/-- R122, R251 to R255: the engine reports the first failing check, and a failed command changes STATUS only. -/
def Obligations.FirstFailingCheckGivesTheCode : Prop :=
  ∀ (s : State) (cur : Word), s.block.engine = .busy cur → EngineTurn s → ∃ t, step s = .next t ∧
    (specCode cur s.config s.block = 0 → t.block.status = { s.block.status with done := true } ∧
      t.block.engine = .idle) ∧
    (specCode cur s.config s.block ≠ 0 →
      t = failedWith { s with schedule := s.schedule.tail } (BitVec.ofNat 4 (specCode cur s.config s.block)))

/-- R130: NOP and the four matrix algebra commands always succeed, access no memory, and their results depend on M, N,
PARAM0 and PARAM1 only. -/
def Obligations.AlgebraCommandsAlwaysSucceed : Prop :=
  ∀ (i : Instr) (s s' : State), i ∈ [Instr.nop, .mIdent, .nSat, .nScaleOff, .mCompose] →
    s'.block.m = s.block.m → s'.block.n = s.block.n → s'.block.param0 = s.block.param0 →
    s'.block.param1 = s.block.param1 → ∃ t t', exec i s = .next t ∧ exec i s' = .next t' ∧
      t.block.status = { s.block.status with done := true } ∧ t.mem = s.mem ∧
      t'.block.m = t.block.m ∧ t'.block.n = t.block.n

/-! ### The matrix algebra -/

/-- R128: NOP does nothing but complete with DONE. -/
def Obligations.NopOnlyCompletes : Prop := ∀ s : State, exec .nop s = .next (doneWith s s.block)

/-- R139: M_IDENT makes M the identity; N and everything else is untouched. -/
def Obligations.MIdentWritesTheIdentity : Prop :=
  ∀ s : State, ∃ v : ColorMatrix, exec .mIdent s = .next (doneWith s { s.block with m := v }) ∧
    ∀ t : Fin 20, v[t].toInt = if t.val ∈ [0, 6, 12, 18] then 65536 else 0

/-- R137: N_SAT makes N the saturation matrix of PARAM0, each weight product rounded once; the `sat32` of the rule is
never active. Nothing else changes. -/
def Obligations.NSatWritesTheSaturationMatrix : Prop :=
  ∀ s : State, ∃ v : ColorMatrix, exec .nSat s = .next (doneWith s { s.block with n := v }) ∧
    ∀ (i : Fin 4) (j : Fin 5), coeff v i j =
      if i = 3 then (if j = 3 then 65536 else 0)
      else if j = 3 ∨ j = 4 then 0
      else rha ((![13959, 46858, 4719, 0, 0] : Fin 5 → Int) j * (65536 - s.block.param0.toInt)) 65536 +
        if i.val = j.val then s.block.param0.toInt else 0

/-- R137, corner cases: `s = 0` gives three identical colour rows of luma weights, `s = 1.0` the identity. -/
def Obligations.NSatCornerCases : Prop :=
  ∀ s : State, ∃ t, exec .nSat s = .next t ∧
    (s.block.param0 = 0x00010000 → IsIdentity t.block.n) ∧
    (s.block.param0 = 0x00000000 → ∀ (i : Fin 4) (j : Fin 5), i ≠ 3 →
      coeff t.block.n i j = (![13959, 46858, 4719, 0, 0] : Fin 5 → Int) j)

/-- R138: N_SCALEOFF makes N the contrast matrix of PARAM0 and PARAM1. Nothing else changes. -/
def Obligations.NScaleOffWritesTheContrastMatrix : Prop :=
  ∀ s : State, ∃ v : ColorMatrix, exec .nScaleOff s = .next (doneWith s { s.block with n := v }) ∧
    ∀ (i : Fin 4) (j : Fin 5), coeff v i j =
      if i = 3 then (if j = 3 then 65536 else 0)
      else if j = 4 then sat32 (rha ((65536 - s.block.param0.toInt) * 255) 2 + s.block.param1.toInt)
      else if i.val = j.val then s.block.param0.toInt else 0

/-- R140: M_COMPOSE makes M the product N · M of the affine extensions, every term from the old matrices, each
coefficient rounded once and saturated. Nothing else changes. -/
def Obligations.MComposeMultiplies : Prop :=
  ∀ s : State, ∃ v : ColorMatrix, exec .mCompose s = .next (doneWith s { s.block with m := v }) ∧
    ∀ (i : Fin 4) (j : Fin 5), coeff v i j =
      sat32 (rha ((∑ k : Fin 4, coeff s.block.n i k.castSucc * coeff s.block.m k j) +
        if j = 4 then coeff s.block.n i 4 * 65536 else 0) 65536)

/-- R140, R142: composing the identity onto M changes nothing, and composing N onto the identity gives exactly N. -/
def Obligations.ComposingWithTheIdentity : Prop :=
  ∀ s : State,
    (IsIdentity s.block.n → exec .mCompose s = .next (doneWith s s.block)) ∧
      (IsIdentity s.block.m → exec .mCompose s = .next (doneWith s { s.block with m := s.block.n }))

/-- R144: every matrix the algebra commands write has the fixed alpha row, M_COMPOSE when both its operands have it. -/
def Obligations.AlgebraKeepsTheAlphaRow : Prop :=
  ∀ s : State, ∃ t1 t2 t3 t4, exec .mIdent s = .next t1 ∧ exec .nSat s = .next t2 ∧ exec .nScaleOff s = .next t3 ∧
    exec .mCompose s = .next t4 ∧ AlphaRowFixed t1.block.m ∧ AlphaRowFixed t2.block.n ∧ AlphaRowFixed t3.block.n ∧
    (AlphaRowFixed s.block.m → AlphaRowFixed s.block.n → AlphaRowFixed t4.block.m)

/-- R143: a saturation matrix S all of whose colour rows sum to 1.0 and a contrast matrix C compose to the same M in both
orders, bit for bit; but composition is not commutative in general. -/
def Obligations.SaturationAndContrastCommute : Prop :=
  (∀ (s : State) (S C : ColorMatrix) (c t : Word),
    AlphaRowFixed S → AlphaRowFixed C →
    (∀ i : Fin 4, i ≠ 3 → coeff S i 3 = 0 ∧ coeff S i 4 = 0 ∧ coeff S i 0 + coeff S i 1 + coeff S i 2 = 65536) →
    (∀ i : Fin 4, i ≠ 3 → ∀ j : Fin 5, coeff C i j = if j = 4 then t.toInt else if i.val = j.val then c.toInt else 0) →
    ∃ t1 t2, exec .mCompose { s with block := { s.block with n := S, m := C } } = .next t1 ∧
      exec .mCompose { s with block := { s.block with n := C, m := S } } = .next t2 ∧ t1.block.m = t2.block.m) ∧
  ∃ (s t1 t2 : State) (A B : ColorMatrix),
    exec .mCompose { s with block := { s.block with n := A, m := B } } = .next t1 ∧
      exec .mCompose { s with block := { s.block with n := B, m := A } } = .next t2 ∧ t1.block.m ≠ t2.block.m

/-- R136: the luma weights of the block are the encoded literals 0.213, 0.715 and 0.072, and sum to exactly 1.0. -/
def Obligations.LumaWeightsAreTheEncodedLiterals : Prop :=
  lumaR = q16 213 1000 ∧ lumaG = q16 715 1000 ∧ lumaB = q16 72 1000 ∧
    lumaR = 13959 ∧ lumaG = 46858 ∧ lumaB = 4719 ∧ lumaR + lumaG + lumaB = 65536

/-! ### The arithmetic -/

/-- R15: `rha(p, q)` is `sign(p) * ((2*|p| + q) div (2*q))`, which is `p / q` rounded to the nearest integer with ties
away from zero. -/
def Obligations.RoundingIsNearestTiesAway : Prop :=
  (∀ (p : Int) (q : Nat), 0 < q →
    rha p q = (if p < 0 then -1 else 1) * ((2 * |p| + q) / (2 * q)) ∧
      2 * |p - q * rha p q| ≤ q ∧ (2 * |p - q * rha p q| = q → |p| < |q * rha p q|)) ∧
  rha 3 2 = 2 ∧ rha (-3) 2 = -2 ∧ rha 5 4 = 1 ∧ rha (-1) 4 = 0

/-- R164: for every rational p / q, rounding its limit to [0, 255] equals limiting its rounding. -/
def Obligations.ClampThenRoundIsRoundThenClamp : Prop :=
  ∀ (p : Int) (q : Nat), 0 < q → rha (clamp p 0 (255 * q)) q = clamp (rha p q) 0 255

/-- R73: a pixel word is A, R, G, B from most to least significant byte, and packing undoes unpacking. -/
def Obligations.PixelWordIsARGB : Prop :=
  (∀ p : Pixel, px (pack p) = p) ∧
    ∀ w : Word, pack (px w) = w ∧ (px w).a.toNat = w.toNat / 2 ^ 24 ∧ (px w).r.toNat = w.toNat / 2 ^ 16 % 256 ∧
      (px w).g.toNat = w.toNat / 2 ^ 8 % 256 ∧ (px w).b.toNat = w.toNat % 256

/-- R167, R183, R199: the exact sums fit the widths the spec derives, for all coefficients and channel values. -/
def Obligations.AccumulatorsFitTheirWidths : Prop :=
  (∀ (m : ColorMatrix) (p : Pixel) (i : Fin 4), |matrixAcc m p i| < 2 ^ 42) ∧
    (∀ (k : ConvKernel) (off : Word) (f : Int → Int → Nat), (∀ dx dy, f dx dy ≤ 255) →
      |convAcc k (sext off) f| < 2 ^ 43) ∧
    ∀ (b : Block) (f : Int → Nat), (∀ d, f d ≤ 255) → windowSum (blurRadius b) f ≤ 5355 ∧
      windowMean (blurRadius b) f ≤ 255

/-! ### The image commands -/

/-- R160 to R162: MAT_APPLY turns every source pixel into the destination pixel at the same place, each of the four
channels the exact sum rounded and clamped; only DST and STATUS change. -/
def Obligations.MatApplyTransformsEveryPixel : Prop :=
  ∀ s : State, ImageReady s → ∃ t, exec .matApply s = .next t ∧ t = { doneWith s s.block with mem := t.mem } ∧
    OnlyOutputChanged .matApply s t ∧
    ∀ x y, InImage s.block x y → ∀ i : Fin 4,
      ((chanAt (pixelOfImage t s.block.dstBase x y) i).toNat : Int) =
        clamp (rha ((∑ k : Fin 4, coeff s.block.m i k.castSucc *
          (chanAt (pixelOfImage s s.block.srcBase x y) k).toNat) + coeff s.block.m i 4) 65536) 0 255

/-- R165: with M the identity every output pixel equals its input pixel. -/
def Obligations.MatApplyWithIdentityCopies : Prop :=
  ∀ s : State, ImageReady s → IsIdentity s.block.m → ∃ t, exec .matApply s = .next t ∧
    ∀ x y, InImage s.block x y → pixelOfImage t s.block.dstBase x y = pixelOfImage s s.block.srcBase x y

/-- R163: with the fixed alpha row the output alpha equals the input alpha exactly. -/
def Obligations.MatApplyKeepsAlpha : Prop :=
  ∀ s : State, ImageReady s → AlphaRowFixed s.block.m → ∃ t, exec .matApply s = .next t ∧
    ∀ x y, InImage s.block x y → (pixelOfImage t s.block.dstBase x y).a = (pixelOfImage s s.block.srcBase x y).a

/-- R166: M_IDENT, N_SAT with s = 0 and M_COMPOSE, then MAT_APPLY, give R' = G' = B' exactly and keep alpha. -/
def Obligations.GrayscaleMakesChannelsEqual : Prop :=
  ∀ s : State, ImageReady s → s.block.param0 = 0 → ∃ s1 s2 s3 t, exec .mIdent s = .next s1 ∧
    exec .nSat s1 = .next s2 ∧ exec .mCompose s2 = .next s3 ∧ exec .matApply s3 = .next t ∧
    ∀ x y, InImage s.block x y →
      (pixelOfImage t s.block.dstBase x y).r = (pixelOfImage t s.block.dstBase x y).g ∧
      (pixelOfImage t s.block.dstBase x y).g = (pixelOfImage t s.block.dstBase x y).b ∧
      (pixelOfImage t s.block.dstBase x y).a = (pixelOfImage s s.block.srcBase x y).a

/-- R175 to R181: CONV_APPLY gives each colour channel of each pixel the rounded and clamped sum of CONV_OFFSET and the
nine clamped-to-edge samples of that channel weighted by K, not mirrored, and copies alpha; only DST and STATUS
change. -/
def Obligations.ConvApplyCorrelatesEveryPixel : Prop :=
  ∀ s : State, ImageReady s → ∃ t, exec .convApply s = .next t ∧ t = { doneWith s s.block with mem := t.mem } ∧
    OnlyOutputChanged .convApply s t ∧
    ∀ x y, InImage s.block x y →
      (pixelOfImage t s.block.dstBase x y).a = (pixelOfImage s s.block.srcBase x y).a ∧
      ∀ c : Channel, (channel c (pixelOfImage t s.block.dstBase x y) : Int) =
        clamp (rha (s.block.convOffset.toInt + ∑ dy : Fin 3, ∑ dx : Fin 3,
          kernelCoeff s.block.k ⟨3 * dy.val + dx.val, by omega⟩ *
            channel c (pixelOfImage s s.block.srcBase
              (edgeClamp ((x : Int) + dx.val - 1) s.block.width.toInt)
              (edgeClamp ((y : Int) + dy.val - 1) s.block.height.toInt))) 65536) 0 255

/-- R182: where the nine samples of a channel of a pixel are all v the output channel is `out8(v * ΣK + off)`; a channel
that is v in the whole image is so at every pixel, edges included. -/
def Obligations.ConvApplyOnUniformImage : Prop :=
  ∀ (s : State) (c : Channel) (v : Nat), ImageReady s → ∃ t, exec .convApply s = .next t ∧
    ∀ x y, InImage s.block x y →
      (UniformSource s c v ∨ ∀ dx dy : Fin 3, channel c (pixelOfImage s s.block.srcBase
        (edgeClamp ((x : Int) + dx.val - 1) s.block.width.toInt)
        (edgeClamp ((y : Int) + dy.val - 1) s.block.height.toInt)) = v) →
      (channel c (pixelOfImage t s.block.dstBase x y) : Int) =
        clamp (rha (v * (∑ i : Fin 9, kernelCoeff s.block.k i) + s.block.convOffset.toInt) 65536) 0 255

/-- R190 to R195: BLUR_APPLY writes the truncating horizontal mean of SRC to TMP and the truncating vertical mean of
those values to DST, over 2r + 1 clamped samples each, alpha 255 in both; only TMP, DST and STATUS change. -/
def Obligations.BlurApplyAveragesInTwoPasses : Prop :=
  ∀ s : State, ImageReady s → TmpReady s → ∃ t, exec .blurApply s = .next t ∧
    t = { doneWith s s.block with mem := t.mem } ∧ OnlyOutputChanged .blurApply s t ∧
    ∀ x y, InImage s.block x y →
      (pixelOfImage t s.block.tmpBase x y).a = 255 ∧ (pixelOfImage t s.block.dstBase x y).a = 255 ∧
      ∀ c : Channel,
        let r := (clamp s.block.radius.toInt 1 10).toNat
        channel c (pixelOfImage t s.block.tmpBase x y) =
          (∑ d ∈ Finset.range (2 * r + 1), channel c (pixelOfImage s s.block.srcBase
            (edgeClamp ((x : Int) + d - r) s.block.width.toInt) y)) / (2 * r + 1) ∧
        channel c (pixelOfImage t s.block.dstBase x y) =
          (∑ d ∈ Finset.range (2 * r + 1), channel c (pixelOfImage t s.block.tmpBase x
            (edgeClamp ((y : Int) + d - r) s.block.height.toInt))) / (2 * r + 1)

/-- R197: a channel that is v in the whole image is v in every pixel of TMP and DST, at every size and every RADIUS, with
alpha 255 whatever the source alpha. -/
def Obligations.BlurKeepsUniformColour : Prop :=
  ∀ (s : State) (c : Channel) (v : Nat), ImageReady s → TmpReady s → UniformSource s c v →
    ∃ t, exec .blurApply s = .next t ∧ ∀ x y, InImage s.block x y →
      channel c (pixelOfImage t s.block.tmpBase x y) = v ∧ channel c (pixelOfImage t s.block.dstBase x y) = v ∧
      (pixelOfImage t s.block.dstBase x y).a = 255

/-- R191: 0 and every negative RADIUS act as 1, every value above 10 acts as 10, and RADIUS is not written back. -/
def Obligations.BlurRadiusIsClamped : Prop :=
  ∀ (s : State) (v u : Word), (v.toInt ≤ 0 ∧ u = 1) ∨ (10 < v.toInt ∧ u = 10) →
    ∃ t t', exec .blurApply { s with block := { s.block with radius := v } } = .next t ∧
      exec .blurApply { s with block := { s.block with radius := u } } = .next t' ∧
      t.mem = t'.mem ∧ t.block = { t'.block with radius := v } ∧ t'.block.radius = u

/-- R80, R81: whatever a command's outcome, no byte outside its output regions changes, and no byte of SRC. -/
def Obligations.CommandsWriteOnlyTheirOutput : Prop :=
  ∀ (i : Instr) (s : State), ∃ t, exec i s = .next t ∧ OnlyOutputChanged i s t ∧
    ∀ a, InRegion s.block s.block.srcBase a → Memory.readByte t.mem a = Memory.readByte s.mem a

/-- R3: every output byte is a function of the command, the registers and the source bytes: two machines that agree on
these, and on nothing else, complete the command with the same block and the same output bytes. -/
def Obligations.OutputDependsOnRegistersAndSource : Prop :=
  ∀ (i : Instr) (s s' : State), s'.block = s.block → CommandReady i s → CommandReady i s' →
    (∀ a, InRegion s.block s.block.srcBase a → Memory.readByte s'.mem a = Memory.readByte s.mem a) →
    ∃ t t', exec i s = .next t ∧ exec i s' = .next t' ∧ t'.block = t.block ∧
      ∀ a, InOutput i s.block a → Memory.readByte t'.mem a = Memory.readByte t.mem a

/-! ### The register window -/

/-- R33: while IDLE a RW register holds the word written and reads it back; every other register reads as before. -/
def Obligations.RegistersReadBackWhatIsWritten : Prop :=
  ∀ (s : State) (rest : List HostOp) (r : Reg) (w : Word), s.block.engine = .idle → isReadWrite r = true →
    s.host = .regWrite (s.config.regBase + regOffset r) 4 w :: rest → ∃ t, hostStep s = .next t ∧
      readReg t.block r = w ∧ (∀ r', r' ≠ r → readReg t.block r' = readReg s.block r') ∧
      t.block.engine = .idle ∧ t.mem = s.mem ∧ t.host = rest

/-- R33: the offsets of the window name the registers of the table, and the reserved offsets read 0. -/
def Obligations.WindowOffsetsNameTheRegisters : Prop :=
  ([0x000, 0x004, 0x008, 0x00C, 0x010, 0x014, 0x018, 0x01C, 0x020, 0x024, 0x028, 0x02C, 0x030, 0x034, 0x038,
      0x03C].map regAt =
    [.id, .version, .ctrl, .status, .cmd, .srcBase, .dstBase, .tmpBase, .width, .height, .srcLen, .radius, .param0,
      .param1, .convOffset, .reserved]) ∧
    (∀ i : Fin 20, regAt (0x040 + 4 * i.val) = .m i ∧ regAt (0x090 + 4 * i.val) = .n i) ∧
    (∀ i : Fin 9, regAt (0x0E0 + 4 * i.val) = .k i) ∧
    (∀ off, 0x104 ≤ off → regAt off = .reserved) ∧ ∀ b, readReg b .reserved = 0

/-- R40: while BUSY a write to a RW register is ignored and sets WIGN; a write to a read-only or reserved location, at
every offset of the window, changes nothing, IDLE or BUSY. -/
def Obligations.BusyWritesAreIgnored : Prop :=
  ∀ (s : State) (rest : List HostOp) (w : Word),
    (∀ (cur : Word) (r : Reg), s.block.engine = .busy cur → isReadWrite r = true →
      s.host = .regWrite (s.config.regBase + regOffset r) 4 w :: rest →
        hostStep s = .next { s with
          host := rest
          block := { s.block with status := { s.block.status with wign := true } } }) ∧
    ∀ off, off < 4096 → off % 4 = 0 → regAt off ∈ [Reg.id, .version, .reserved] →
      s.host = .regWrite (s.config.regBase + off) 4 w :: rest → hostStep s = .next { s with host := rest }

/-- R40: while BUSY no move of the host changes what the running command reads from registers, short of a reset. -/
def Obligations.OperandsStayConstantWhileBusy : Prop :=
  ∀ (s t : State) (cur : Word), s.block.engine = .busy cur → hostStep s = .next t →
    t.block = Block.reset ∨ t.block = { s.block with irqEn := t.block.irqEn, status := t.block.status }

/-- R37: the bits of STATUS, and what a write to it clears: DONE, ERR with ERRCODE, and WIGN, each by a 1 in its bit;
nothing else changes. -/
def Obligations.StatusWriteClearsFlags : Prop :=
  (∀ b : Block, (statusWord b).toNat = b.busy.toNat + 2 * b.status.done.toNat + 4 * b.status.err.toNat +
    8 * b.status.wign.toNat + 256 * b.status.errCode.toNat) ∧
  ∀ (s : State) (rest : List HostOp) (w : Word), s.host = .regWrite (s.config.regBase + 0x00C) 4 w :: rest →
    hostStep s = .next { s with
      host := rest
      block := { s.block with status :=
        { done := s.block.status.done && !w.getLsbD 1
          err := s.block.status.err && !w.getLsbD 2
          wign := s.block.status.wign && !w.getLsbD 3
          errCode := if w.getLsbD 2 then 0 else s.block.status.errCode } } }

/-- R256, R257: `irq` is IRQ_EN and (DONE or ERR); a CTRL write that sets IRQ_EN while a flag is set asserts it at once,
one that clears IRQ_EN deasserts it, and so does a STATUS write that clears both flags; reading CTRL gives IRQ_EN. -/
def Obligations.InterruptFollowsTheFlags : Prop :=
  (∀ b : Block, irq b = (b.irqEn && (b.status.done || b.status.err))) ∧
  (∀ (s : State) (rest : List HostOp) (w : Word), w.getLsbD 0 = false → w.getLsbD 2 = false →
    s.host = .regWrite (s.config.regBase + 0x008) 4 w :: rest → ∃ t, hostStep s = .next t ∧
      irq t.block = (w.getLsbD 1 && (s.block.status.done || s.block.status.err)) ∧
      (readReg t.block .ctrl).toNat = 2 * (w.getLsbD 1).toNat) ∧
  ∀ (s : State) (rest : List HostOp) (w : Word), w.getLsbD 1 = true → w.getLsbD 2 = true →
    s.host = .regWrite (s.config.regBase + 0x00C) 4 w :: rest → ∃ t, hostStep s = .next t ∧ irq t.block = false

/-- R79: a host read of a register returns its value and changes nothing else. -/
def Obligations.RegisterReadsHaveNoSideEffects : Prop :=
  ∀ (s : State) (rest : List HostOp) (off : Nat), off < 4096 → off % 4 = 0 →
    s.host = .regRead (s.config.regBase + off) 4 :: rest →
      hostStep s = .next { s with host := rest, reads := readReg s.block (regAt off) :: s.reads }

/-- R77: an access to the window of another width, or at an address that is not a multiple of 4, is refused. -/
def Obligations.NonWordRegisterAccessIsRefused : Prop :=
  ∀ (s : State) (rest : List HostOp) (addr bytes : Nat) (w : Word), s.config.wellFormed = true →
    s.config.regBase ≤ addr → addr < s.config.regBase + 4096 → (bytes ≠ 4 ∨ addr % 4 ≠ 0) →
      (s.host = .regWrite addr bytes w :: rest → hostStep s = .refused .nonWordRegisterAccess) ∧
      (s.host = .regRead addr bytes :: rest → hostStep s = .refused .nonWordRegisterAccess)

/-! ### System memory -/

/-- R74: a word is stored little-endian, reads back, and changes no other byte. -/
def Obligations.WordsAreLittleEndian : Prop :=
  ∀ (m : Memory) (a : Nat) (w : Word),
    Memory.readWord (Memory.writeWord m a w) a = w ∧
      (∀ k, k < 4 → (Memory.readByte (Memory.writeWord m a w) (a + k)).toNat = w.toNat / 2 ^ (8 * k) % 256) ∧
      (∀ c, c < a ∨ a + 4 ≤ c → Memory.readByte (Memory.writeWord m a w) c = Memory.readByte m c) ∧
      (Memory.readWord m a).toNat = (Memory.readByte m a).toNat + 2 ^ 8 * (Memory.readByte m (a + 1)).toNat +
        2 ^ 16 * (Memory.readByte m (a + 2)).toNat + 2 ^ 24 * (Memory.readByte m (a + 3)).toNat

/-- R86: a host read of a DST or TMP word while the engine is BUSY with the command that writes it returns the word's
value before or its final value under that command; whichever it is stays in memory. -/
def Obligations.ReadWhileBusyIsOldOrFinal : Prop :=
  ∀ (s : State) (cur : Word) (i : Instr) (a : Nat) (rest : List HostOp), s.block.engine = .busy cur →
    decode cur = .ok i → CommandReady i s → InOutput i s.block a → a % 4 = 0 → s.host = .memRead a :: rest →
      ∃ t u w, hostStep s = .next t ∧ exec i s = .next u ∧ t.reads = w :: s.reads ∧ t.block = s.block ∧
        Memory.readWord t.mem a = w ∧ (w = Memory.readWord s.mem a ∨ w = Memory.readWord u.mem a)

/-- R86, old-then-final only: once a DST or TMP word holds its final value, no move of the host makes it differ. -/
def Obligations.FinalValueIsNeverTakenBack : Prop :=
  ∀ (s t u : State) (cur : Word) (i : Instr) (a : Nat), s.block.engine = .busy cur → decode cur = .ok i →
    CommandReady i s → InOutput i s.block a → a % 4 = 0 → exec i s = .next u →
    Memory.readWord s.mem a = Memory.readWord u.mem a → hostStep s = .next t →
      Memory.readWord t.mem a = Memory.readWord u.mem a

/-- R283: a reset that abandons a command leaves each DST and TMP word at its value before or its final value, and every
other byte unchanged; one that abandons a command whose checks fail, or a word that encodes no command, changes no byte
(R126, R284). -/
def Obligations.AbandonedWordsAreOldOrFinal : Prop :=
  ∀ (s : State) (cur : Word) (rest : List HostOp), s.block.engine = .busy cur → s.host = .rst :: rest →
    ∃ t, hostStep s = .next t ∧ t.block = State.reset.block ∧
      (∀ i, decode cur = .ok i → CommandReady i s → OnlyOutputChanged i s t ∧ ∃ u, exec i s = .next u ∧
        ∀ a, a % 4 = 0 → InOutput i s.block a →
          Memory.readWord t.mem a = Memory.readWord s.mem a ∨ Memory.readWord t.mem a = Memory.readWord u.mem a) ∧
      ((EncodesNoCommand cur ∨ ∃ i, decode cur = .ok i ∧ ¬ CommandReady i s) → t.mem = s.mem)

/-- R87: while BUSY with an image command, a host write of a word or a byte that meets its SRC, DST or TMP region is
refused, and one that meets none of them is performed. The regions exist for positive dimensions only. That they count
also when the checks are going to fail (log 8), and that a host word may be unaligned (log 14), is the model's. -/
def Obligations.WriteToRunningRegionIsRefused : Prop :=
  ∀ (s : State) (cur : Word) (i : Instr) (op : HostOp) (a len : Nat) (v : Word) (b : Byte) (stored : Memory)
    (rest : List HostOp), s.block.engine = .busy cur → decode cur = .ok i →
    i ∈ [Instr.matApply, .convApply, .blurApply] → 0 < s.block.width.toInt → 0 < s.block.height.toInt →
    ((op = .memWrite a v ∧ len = 4 ∧ stored = Memory.writeWord s.mem a v) ∨
      (op = .memWriteByte a b ∧ len = 1 ∧ stored = Memory.writeByte s.mem a b)) →
    a + len ≤ s.config.memSize → s.host = op :: rest →
      ((∃ c, a ≤ c ∧ c < a + len ∧ (InRegion s.block s.block.srcBase c ∨ InOutput i s.block c)) →
        hostStep s = .refused .hostWriteToRunningRegion) ∧
      ((∀ c, a ≤ c → c < a + len → ¬ InRegion s.block s.block.srcBase c ∧ ¬ InOutput i s.block c) →
        hostStep s = .next { s with host := rest, mem := stored })

/-- R109, R83, R84: a host access inside memory that no rule restricts. A store that meets no region of a running image
command of positive dimensions is performed; a load that meets no output byte of a running command that passes its
checks gives what memory holds and changes no byte. So it is at every address while IDLE and while BUSY with a command
that touches no memory. -/
def Obligations.UnrestrictedHostAccessesArePerformed : Prop :=
  ∀ (s : State) (a : Nat) (v : Word) (b : Byte) (rest : List HostOp),
    let mayStore (len : Nat) := a + len ≤ s.config.memSize ∧ ∀ cur i, s.block.engine = .busy cur →
      decode cur = .ok i → i ∈ [Instr.matApply, .convApply, .blurApply] → 0 < s.block.width.toInt →
      0 < s.block.height.toInt → ∀ c, a ≤ c → c < a + len →
        ¬ InRegion s.block s.block.srcBase c ∧ ¬ InOutput i s.block c
    let plainLoad (len : Nat) := a + len ≤ s.config.memSize ∧ ∀ cur i, s.block.engine = .busy cur →
      decode cur = .ok i → CommandReady i s → ∀ c, a ≤ c → c < a + len → ¬ InOutput i s.block c
    (mayStore 4 → s.host = .memWrite a v :: rest →
      hostStep s = .next { s with host := rest, mem := Memory.writeWord s.mem a v }) ∧
    (mayStore 1 → s.host = .memWriteByte a b :: rest →
      hostStep s = .next { s with host := rest, mem := Memory.writeByte s.mem a b }) ∧
    (plainLoad 4 → s.host = .memRead a :: rest → ∃ t, hostStep s = .next t ∧
      t = { s with host := rest, reads := Memory.readWord s.mem a :: s.reads, draws := t.draws }) ∧
    (plainLoad 1 → s.host = .memReadByte a :: rest → ∃ t, hostStep s = .next t ∧
      t = { s with host := rest, reads := (Memory.readByte s.mem a).setWidth 32 :: s.reads, draws := t.draws })

/-- R268 (log 23: that the table of R262 leaves this access out is deduced): a host access that is not inside system
memory is refused. -/
def Obligations.AccessOutsideMemoryIsRefused : Prop :=
  ∀ (s : State) (a : Nat) (v : Word) (b : Byte) (rest : List HostOp),
    (s.config.memSize < a + 4 → s.host = .memWrite a v :: rest ∨ s.host = .memRead a :: rest →
      hostStep s = .refused .outsideMemory) ∧
    (s.config.memSize ≤ a → s.host = .memWriteByte a b :: rest ∨ s.host = .memReadByte a :: rest →
      hostStep s = .refused .outsideMemory)

/-! ### The whole machine -/

/-- R38 and the rest of the invariant: codes at most 3 (R250), the latched word in CMD (R40, R121), memory inside MEM_SIZE
(R71) and the model's own canonical form (log 6), legal parameters held in the state (R11, log 2). Every step keeps it,
from every state that meets it. -/
def Obligations.EveryStepKeepsTheInvariant : Prop := ∀ s t : State, s.Inv → step s = .next t → t.Inv

/-- R51: no step changes MEM_SIZE or REG_BASE. -/
def Obligations.StepsKeepTheOpenParameters : Prop := ∀ s t : State, step s = .next t → t.config = s.config

/-- R129: every accepted command completes (or is abandoned by a reset) within as many steps as the schedule has turns,
and one more, whatever the host does, unless a move of the host's own stops the run first. -/
def Obligations.AcceptedCommandsComplete : Prop :=
  ∀ (s : State) (cur : Word), s.block.engine = .busy cur → ∃ k, k ≤ s.schedule.length + 1 ∧
    ((∃ t, core.run k s = .next t ∧ t.block.engine = .idle) ∨
      ∃ k' t, k' < k ∧ core.run k' s = .next t ∧ whoMoves t = .host ∧ ∀ t', step t ≠ .next t')

/-- R129, R40, R86, R87: nothing the host does while the engine is BUSY, short of a reset, changes the result: the
command completed after the host's move has the same output bytes, the same M and N and the same success or failure as
the command completed before it. -/
def Obligations.HostCannotDisturbTheRunningCommand : Prop :=
  ∀ (s t u : State) (cur : Word) (i : Instr), s.block.engine = .busy cur → decode cur = .ok i → CommandReady i s →
    exec i s = .next u → hostStep s = .next t → t.block ≠ Block.reset →
      t.block.engine = .busy cur ∧ CommandReady i t ∧ ∃ v, exec i t = .next v ∧
        v.block.m = u.block.m ∧ v.block.n = u.block.n ∧ v.block.status.done = u.block.status.done ∧
        ∀ a, InOutput i s.block a → Memory.readByte v.mem a = Memory.readByte u.mem a
end

