-- ==== Sys2Proof/Laws/Arithmetic.lean ====
section
/-! SUPPORT. Laws of the fixed-point arithmetic (00_scope.md R13 to R16). -/

namespace Sys2Proof.Machine

theorem rha_nonneg {p : Int} {q : Nat} (hp : 0 ≤ p) : 0 ≤ rha p q := by
  unfold rha
  simp only [not_lt.mpr hp, if_false]
  exact Int.natCast_nonneg _

/-- `rha` of a non-negative numerator as integer division. -/
theorem rha_of_nonneg {p : Int} {q : Nat} (hp : 0 ≤ p) : rha p q = (2 * p + q) / (2 * q) := by
  unfold rha
  simp only [not_lt.mpr hp, if_false]
  push_cast
  rw [abs_of_nonneg hp]

/-- `rha` is odd: it rounds the magnitude. -/
theorem rha_neg (p : Int) (q : Nat) (hq : 0 < q) : rha (-p) q = -rha p q := by
  unfold rha
  rcases lt_trichotomy p 0 with h | h | h
  · have : ¬ (-p < 0) := by omega
    simp only [h, this, if_true, if_false, Int.natAbs_neg, neg_neg]
  · subst h
    have : q / (2 * q) = 0 := Nat.div_eq_of_lt (by omega)
    simp [this]
  · have h1 : -p < 0 := by omega
    have h2 : ¬ p < 0 := by omega
    simp only [h1, h2, if_true, if_false, Int.natAbs_neg]

/-- A multiple of the divisor rounds to itself. -/
@[simp] theorem rha_mul_self (k : Int) (q : Nat) (hq : 0 < q) : rha (q * k) q = k := by
  rcases le_or_gt 0 k with h | h
  · rw [rha_of_nonneg (by positivity)]
    have hq' : (0 : Int) < 2 * q := by omega
    rw [show (2 * ((q : Int) * k) + q) = q + (2 * q) * k by ring, Int.add_mul_ediv_left _ _ hq'.ne']
    rw [Int.ediv_eq_zero_of_lt (by omega) (by omega)]
    omega
  · have hk : 0 ≤ -k := by omega
    rw [show (q : Int) * k = -(q * (-k)) by ring, rha_neg _ _ hq, rha_of_nonneg (by positivity)]
    have hq' : (0 : Int) < 2 * q := by omega
    rw [show (2 * ((q : Int) * -k) + q) = q + (2 * q) * (-k) by ring, Int.add_mul_ediv_left _ _ hq'.ne']
    rw [Int.ediv_eq_zero_of_lt (by omega) (by omega)]
    omega

/-- The defining bounds of `rha` for a non-negative numerator. -/
theorem rha_bounds {p : Int} {q : Nat} (hp : 0 ≤ p) (hq : 0 < q) :
    2 * q * rha p q ≤ 2 * p + q ∧ 2 * p + q < 2 * q * rha p q + 2 * q := by
  rw [rha_of_nonneg hp]
  have hq' : (0 : Int) < 2 * q := by omega
  constructor
  · exact Int.mul_ediv_self_le hq'.ne'
  · exact Int.lt_mul_ediv_self_add hq'

theorem rha_mono {p p' : Int} {q : Nat} (hq : 0 < q) (h : p ≤ p') : rha p q ≤ rha p' q := by
  have hq' : (0 : Int) < 2 * q := by omega
  have key : ∀ a b : Int, 0 ≤ a → a ≤ b → rha a q ≤ rha b q := by
    intro a b ha hab
    rw [rha_of_nonneg ha, rha_of_nonneg (ha.trans hab)]
    exact Int.ediv_le_ediv hq' (by omega)
  rcases le_or_gt 0 p with hp | hp
  · exact key p p' hp h
  · rcases le_or_gt 0 p' with hp' | hp'
    · have h1 : 0 ≤ rha (-p) q := rha_nonneg (by omega)
      have h2 : 0 ≤ rha p' q := rha_nonneg hp'
      rw [rha_neg p q hq] at h1
      omega
    · have h1 := key (-p') (-p) (by omega) (by omega)
      rw [rha_neg p q hq, rha_neg p' q hq] at h1
      omega

/-! ### Words and saturation -/

theorem sext_bounds (w : Word) : -2 ^ 31 ≤ sext w ∧ sext w ≤ 2 ^ 31 - 1 := by
  unfold sext
  have h1 := BitVec.le_toInt w
  have h2 := BitVec.toInt_lt (x := w)
  norm_num at h1 h2 ⊢
  omega

theorem sext_toWord {n : Int} (h : -2 ^ 31 ≤ n) (h' : n ≤ 2 ^ 31 - 1) : sext (toWord n) = n := by
  unfold sext toWord
  rw [BitVec.toInt_ofInt]
  norm_num at h h' ⊢
  exact Int.bmod_eq_of_le (by omega) (by omega)

@[simp] theorem toWord_sext (w : Word) : toWord (sext w) = w := by simp [toWord, sext]

theorem sat32_bounds (n : Int) : -2 ^ 31 ≤ sat32 n ∧ sat32 n ≤ 2 ^ 31 - 1 := by unfold sat32; omega

theorem sat32_of_bounds {n : Int} (h : -2 ^ 31 ≤ n) (h' : n ≤ 2 ^ 31 - 1) : sat32 n = n := by
  unfold sat32; omega

@[simp] theorem sat32_sext (w : Word) : sat32 (sext w) = sext w :=
  sat32_of_bounds (sext_bounds w).1 (sext_bounds w).2

@[simp] theorem sext_toWord_sat32 (n : Int) : sext (toWord (sat32 n)) = sat32 n :=
  sext_toWord (sat32_bounds n).1 (sat32_bounds n).2

/-- A saturated value is a fixed point of saturation. -/
@[simp] theorem sat32_sat32 (n : Int) : sat32 (sat32 n) = sat32 n :=
  sat32_of_bounds (sat32_bounds n).1 (sat32_bounds n).2

/-- A Q32 product with 1.0 rounds back unchanged. -/
@[simp] theorem rnd16_mul_one (n : Int) : rnd16 (n * 65536) = n := by
  unfold rnd16
  have := rha_mul_self n 65536 (by decide)
  rwa [show ((65536 : Nat) : Int) * n = n * 65536 by push_cast; ring] at this

/-! ### Channels -/

theorem clamp8_bounds (n : Int) : 0 ≤ clamp8 n ∧ clamp8 n ≤ 255 := by unfold clamp8 clamp; omega

theorem clamp_bounds {lo hi : Int} (h : lo ≤ hi) (n : Int) : lo ≤ clamp n lo hi ∧ clamp n lo hi ≤ hi := by
  unfold clamp; omega

/-- The channel byte `out8` stores is the clamped rounding. -/
theorem out8_toNat (acc : Int) : ((out8 acc).toNat : Int) = clamp8 (rha acc 65536) := by
  unfold out8
  have h := clamp8_bounds (rha acc 65536)
  rw [BitVec.toNat_ofInt]
  norm_num
  omega

/-- A channel value times 1.0 comes back as that channel. -/
@[simp] theorem out8_channel (c : Byte) : out8 (65536 * (c.toNat : Int)) = c := by
  apply BitVec.eq_of_toNat_eq
  have h := out8_toNat (65536 * (c.toNat : Int))
  have hr := rha_mul_self (c.toNat : Int) 65536 (by decide)
  rw [show ((65536 : Nat) : Int) = 65536 by norm_num] at hr
  rw [hr] at h
  have hc := c.isLt
  unfold clamp8 clamp at h
  omega

end Sys2Proof.Machine
end

