-- ==== Sys2Proof/Laws/Memory.lean ====
section
/-! SUPPORT. Laws of system memory: what a read after a write gives, the canonical form and the bounds of memory
(20_memory.md R70 to R75, R81). -/

namespace Sys2Proof.Machine

/-- Nothing is listed at reset, so the canonical form holds. -/
theorem reset_mem_wf : Memory.wf State.reset.mem := by decide

/-! ### One byte -/

theorem readByte_insertByte (m : Memory) (a : Nat) (v : Byte) (c : Nat) :
    Memory.readByte (Memory.insertByte m a v) c = if a = c then v else Memory.readByte m c := by
  induction m with
  | nil => simp [Memory.insertByte, Memory.readByte]
  | cons e rest ih =>
    obtain ⟨b, u⟩ := e
    rcases lt_trichotomy a b with h | h | h
    · simp only [Memory.insertByte, h, if_true, Memory.readByte]
    · subst h
      by_cases hc : a = c <;> simp [Memory.insertByte, Memory.readByte, hc]
    · simp only [Memory.insertByte, not_lt.mpr h.le, h.ne', if_false, Memory.readByte, ih]
      by_cases hc : a = c
      · subst hc
        simp [h.ne]
      · simp [hc]

theorem readByte_filter (m : Memory) (a c : Nat) :
    Memory.readByte (m.filter fun e => e.1 ≠ a) c = if a = c then unlistedByte else Memory.readByte m c := by
  induction m with
  | nil => simp [Memory.readByte]
  | cons e rest ih =>
    obtain ⟨b, u⟩ := e
    by_cases hb : b = a
    · subst hb
      simp only [List.filter_cons, ne_eq, not_true_eq_false, decide_false, Bool.false_eq_true, if_false]
      rw [show (fun e : Host.Cell => decide ¬e.1 = b) = fun e => decide (e.1 ≠ b) from rfl, ih]
      by_cases hc : b = c <;> simp [Memory.readByte, hc]
    · simp only [List.filter_cons, ne_eq, hb, not_false_eq_true, decide_true, if_true, Memory.readByte]
      rw [show (fun e : Host.Cell => decide ¬e.1 = a) = fun e => decide (e.1 ≠ a) from rfl, ih]
      by_cases hc : b = c
      · subst hc
        simp [Ne.symm hb]
      · simp [hc]

/-- Everything a byte write does, said by reads: the byte written, and every other byte as before. -/
theorem readByte_writeByte (m : Memory) (a : Nat) (v : Byte) (c : Nat) :
    Memory.readByte (Memory.writeByte m a v) c = if a = c then v else Memory.readByte m c := by
  unfold Memory.writeByte
  split_ifs with h1 h2 h2
  · rw [readByte_filter]; simp [h1, h2]
  · rw [readByte_filter]; simp [h2]
  · rw [readByte_insertByte]; simp [h2]
  · rw [readByte_insertByte]; simp [h2]

/-! ### One word -/

/-- Everything a word write does, said by reads (R74). -/
theorem readByte_writeWord (m : Memory) (a : Nat) (w : Word) (c : Nat) :
    Memory.readByte (Memory.writeWord m a w) c =
      if c = a then w.extractLsb' 0 8
      else if c = a + 1 then w.extractLsb' 8 8
      else if c = a + 2 then w.extractLsb' 16 8
      else if c = a + 3 then w.extractLsb' 24 8
      else Memory.readByte m c := by
  unfold Memory.writeWord
  simp only [readByte_writeByte]
  split_ifs <;> first | rfl | omega

/-- A word write leaves every byte outside its four as it was. -/
theorem readByte_writeWord_outside {m : Memory} {a : Nat} {w : Word} {c : Nat} (h : c < a ∨ a + 4 ≤ c) :
    Memory.readByte (Memory.writeWord m a w) c = Memory.readByte m c := by
  rw [readByte_writeWord]
  split_ifs <;> first | rfl | omega

/-- Four bytes of a word put together give the word (R74). -/
theorem word_of_bytes (w : Word) :
    w.extractLsb' 24 8 ++ w.extractLsb' 16 8 ++ w.extractLsb' 8 8 ++ w.extractLsb' 0 8 = w := by
  apply BitVec.eq_of_getLsbD_eq
  intro i hi
  simp only [BitVec.getLsbD_append, BitVec.getLsbD_extractLsb']
  rcases Nat.lt_or_ge i 8 with h | h
  · simp [h]
  rcases Nat.lt_or_ge i 16 with h' | h'
  · have : i - 8 < 8 := by omega
    simp [show ¬ i < 8 by omega, this, show 8 + (i - 8) = i by omega]
  rcases Nat.lt_or_ge i 24 with h'' | h''
  · have h1 : i - 8 - 8 < 8 := by omega
    simp [show ¬ i < 8 by omega, show ¬ i - 8 < 8 by omega, h1, show 16 + (i - 8 - 8) = i by omega]
  · have h1 : i - 8 - 8 - 8 < 8 := by omega
    simp [show ¬ i < 8 by omega, show ¬ i - 8 < 8 by omega, show ¬ i - 8 - 8 < 8 by omega, h1,
      show 24 + (i - 8 - 8 - 8) = i by omega]

@[simp] theorem readWord_writeWord_same (m : Memory) (a : Nat) (w : Word) :
    Memory.readWord (Memory.writeWord m a w) a = w := by
  unfold Memory.readWord
  simp only [readByte_writeWord]
  simp only [show a + 3 ≠ a by omega, show a + 3 ≠ a + 1 by omega, show a + 3 ≠ a + 2 by omega,
    show a + 2 ≠ a by omega, show a + 2 ≠ a + 1 by omega, show a + 1 ≠ a by omega, if_true, if_false]
  exact word_of_bytes w

/-- Two memories with the same bytes hold the same words. -/
theorem readWord_congr {m m' : Memory} {a : Nat}
    (h : ∀ c, a ≤ c → c < a + 4 → Memory.readByte m' c = Memory.readByte m c) :
    Memory.readWord m' a = Memory.readWord m a := by
  unfold Memory.readWord
  rw [h a (by omega) (by omega), h (a + 1) (by omega) (by omega), h (a + 2) (by omega) (by omega),
    h (a + 3) (by omega) (by omega)]

theorem readWord_writeWord_apart {m : Memory} {a b : Nat} {w : Word} (h : a + 4 ≤ b ∨ b + 4 ≤ a) :
    Memory.readWord (Memory.writeWord m a w) b = Memory.readWord m b :=
  readWord_congr fun c h1 h2 => readByte_writeWord_outside (by omega)

/-- The four fields of a word put together from bytes. -/
theorem bytes_of_word (b3 b2 b1 b0 : Byte) :
    (b3 ++ b2 ++ b1 ++ b0).extractLsb' 0 8 = b0 ∧ (b3 ++ b2 ++ b1 ++ b0).extractLsb' 8 8 = b1 ∧
      (b3 ++ b2 ++ b1 ++ b0).extractLsb' 16 8 = b2 ∧ (b3 ++ b2 ++ b1 ++ b0).extractLsb' 24 8 = b3 := by
  refine ⟨?_, ?_, ?_, ?_⟩ <;> apply BitVec.eq_of_getLsbD_eq <;> intro i hi <;>
    simp only [BitVec.getLsbD_append, BitVec.getLsbD_extractLsb', hi, decide_true, Bool.true_and]
  · simp [hi]
  · simp [show ¬ 8 + i < 8 by omega, hi]
  · simp [show ¬ 16 + i < 8 by omega, show 16 + i - 8 = 8 + i by omega, hi]
  · simp [show ¬ 24 + i < 8 by omega, show 24 + i - 8 = 16 + i by omega, show ¬ 16 + i < 8 by omega,
      show 16 + i - 8 = 8 + i by omega]

/-- The bytes of a word in memory are its fields (R74). -/
theorem readWord_byte (m : Memory) (a k : Nat) (hk : k < 4) :
    (Memory.readWord m a).extractLsb' (8 * k) 8 = Memory.readByte m (a + k) := by
  have h := bytes_of_word (Memory.readByte m (a + 3)) (Memory.readByte m (a + 2)) (Memory.readByte m (a + 1))
    (Memory.readByte m a)
  have : k = 0 ∨ k = 1 ∨ k = 2 ∨ k = 3 := by omega
  rcases this with rfl | rfl | rfl | rfl
  · exact h.1
  · exact h.2.1
  · exact h.2.2.1
  · exact h.2.2.2

/-- Equal words at an address are equal bytes there. -/
theorem readByte_eq_of_readWord_eq {m m' : Memory} {a c : Nat}
    (h : Memory.readWord m' a = Memory.readWord m a) (h1 : a ≤ c) (h2 : c < a + 4) :
    Memory.readByte m' c = Memory.readByte m c := by
  obtain ⟨k, rfl⟩ := Nat.exists_eq_add_of_le h1
  rw [← readWord_byte m' a k (by omega), ← readWord_byte m a k (by omega), h]

/-! ### Many words -/

@[simp] theorem writeWords_nil (m : Memory) : Memory.writeWords m [] = m := rfl

@[simp] theorem writeWords_cons (m : Memory) (w : Nat × Word) (ws : List (Nat × Word)) :
    Memory.writeWords m (w :: ws) = Memory.writeWords (Memory.writeWord m w.1 w.2) ws := rfl

theorem writeWords_append (m : Memory) (us ws : List (Nat × Word)) :
    Memory.writeWords m (us ++ ws) = Memory.writeWords (Memory.writeWords m us) ws := by
  simp [Memory.writeWords, List.foldl_append]

/-- A byte outside every word written is as before. -/
theorem readByte_writeWords_outside {m : Memory} {ws : List (Nat × Word)} {c : Nat}
    (h : ∀ w ∈ ws, c < w.1 ∨ w.1 + 4 ≤ c) :
    Memory.readByte (Memory.writeWords m ws) c = Memory.readByte m c := by
  induction ws generalizing m with
  | nil => rfl
  | cons w rest ih =>
    rw [writeWords_cons, ih fun u hu => h u (List.mem_cons_of_mem _ hu),
      readByte_writeWord_outside (h w List.mem_cons_self)]

/-- The words of a list do not share a byte. -/
abbrev WordsApart (ws : List (Nat × Word)) : Prop := ws.Pairwise fun u w => u.1 + 4 ≤ w.1 ∨ w.1 + 4 ≤ u.1

/-- Two different words of such a list share no byte. -/
theorem wordsApart_of_mem {ws : List (Nat × Word)} (hp : WordsApart ws) {u w : Nat × Word} (hu : u ∈ ws) (hw : w ∈ ws)
    (hne : u ≠ w) : u.1 + 4 ≤ w.1 ∨ w.1 + 4 ≤ u.1 := by
  induction ws with
  | nil => cases hu
  | cons v rest ih =>
    have hp := List.pairwise_cons.mp hp
    rcases List.mem_cons.mp hu with rfl | hu' <;> rcases List.mem_cons.mp hw with rfl | hw'
    · exact absurd rfl hne
    · exact hp.1 w hw'
    · exact (hp.1 u hu').symm
    · exact ih hp.2 hu' hw'

/-- Words that share no byte all hold their values after they are written, in whatever order (R81, R85). -/
theorem readWord_writeWords_mem {m : Memory} {ws : List (Nat × Word)} (hp : WordsApart ws)
    {a : Nat} {v : Word} (h : (a, v) ∈ ws) : Memory.readWord (Memory.writeWords m ws) a = v := by
  induction ws generalizing m with
  | nil => cases h
  | cons w rest ih =>
    have hp := List.pairwise_cons.mp hp
    rcases List.mem_cons.mp h with rfl | h
    · rw [writeWords_cons, readWord_congr (m := Memory.writeWord m a v), readWord_writeWord_same]
      intro c h1 h2
      apply readByte_writeWords_outside
      intro u hu
      have := hp.1 u hu
      simp only at this
      omega
    · exact ih hp.2 h

/-! ### The canonical form and the bounds of memory -/

theorem mem_insertByte {m : Memory} {a : Nat} {v : Byte} {c : Host.Cell} (h : c ∈ Memory.insertByte m a v) :
    c = (a, v) ∨ c ∈ m := by
  induction m with
  | nil => simpa [Memory.insertByte] using h
  | cons e rest ih =>
    obtain ⟨b, u⟩ := e
    rcases lt_trichotomy a b with hab | hab | hab
    · simpa [Memory.insertByte, hab] using h
    · subst hab
      simp only [Memory.insertByte, lt_irrefl, if_false, if_true, List.mem_cons] at h
      rcases h with h | h
      · exact .inl h
      · exact .inr (List.mem_cons_of_mem _ h)
    · simp only [Memory.insertByte, not_lt.mpr hab.le, hab.ne', if_false, List.mem_cons] at h
      rcases h with h | h
      · exact .inr (h ▸ List.mem_cons_self)
      · exact (ih h).imp_right (List.mem_cons_of_mem _)

theorem insertByte_sorted {m : Memory} (a : Nat) (v : Byte) (h : (m.map Prod.fst).Pairwise (· < ·)) :
    ((Memory.insertByte m a v).map Prod.fst).Pairwise (· < ·) := by
  induction m with
  | nil => simp [Memory.insertByte]
  | cons e rest ih =>
    obtain ⟨b, u⟩ := e
    simp only [List.map_cons, List.pairwise_cons, List.mem_map, forall_exists_index, and_imp] at h
    rcases lt_trichotomy a b with hab | hab | hab
    · simp only [Memory.insertByte, hab, if_true, List.map_cons, List.pairwise_cons, List.mem_cons, List.mem_map]
      refine ⟨?_, ?_, h.2⟩
      · rintro c (rfl | ⟨x, hx, rfl⟩)
        · exact hab
        · exact hab.trans (h.1 _ x hx rfl)
      · rintro c ⟨x, hx, rfl⟩
        exact h.1 _ x hx rfl
    · subst hab
      simp only [Memory.insertByte, lt_irrefl, if_false, if_true, List.map_cons, List.pairwise_cons, List.mem_map]
      refine ⟨?_, h.2⟩
      rintro c ⟨x, hx, rfl⟩
      exact h.1 _ x hx rfl
    · simp only [Memory.insertByte, not_lt.mpr hab.le, hab.ne', if_false, List.map_cons, List.pairwise_cons,
        List.mem_map]
      refine ⟨?_, ih h.2⟩
      rintro c ⟨x, hx, rfl⟩
      rcases mem_insertByte hx with rfl | hx
      · exact hab
      · exact h.1 _ x hx rfl

/-- A byte write keeps the canonical form. -/
theorem writeByte_wf {m : Memory} (a : Nat) (v : Byte) (h : Memory.wf m) : Memory.wf (Memory.writeByte m a v) := by
  unfold Memory.writeByte
  split_ifs with hv
  · exact ⟨h.1.sublist (List.filter_sublist.map _), fun c hc => h.2 c (List.mem_of_mem_filter hc)⟩
  · refine ⟨insertByte_sorted a v h.1, fun c hc => ?_⟩
    rcases mem_insertByte hc with rfl | hc
    · exact hv
    · exact h.2 c hc

theorem writeWord_wf {m : Memory} (a : Nat) (w : Word) (h : Memory.wf m) : Memory.wf (Memory.writeWord m a w) :=
  writeByte_wf _ _ (writeByte_wf _ _ (writeByte_wf _ _ (writeByte_wf _ _ h)))

theorem writeWords_wf {m : Memory} (ws : List (Nat × Word)) (h : Memory.wf m) : Memory.wf (Memory.writeWords m ws) := by
  induction ws generalizing m with
  | nil => exact h
  | cons w rest ih => exact ih (writeWord_wf _ _ h)

/-- Every listed address lies below `n`. -/
abbrev Memory.below (m : Memory) (n : Nat) : Prop := ∀ c ∈ m, c.1 < n

theorem writeByte_below {m : Memory} {a n : Nat} (v : Byte) (h : Memory.below m n) (ha : a < n) :
    Memory.below (Memory.writeByte m a v) n := by
  unfold Memory.writeByte
  split_ifs
  · exact fun c hc => h c (List.mem_of_mem_filter hc)
  · intro c hc
    rcases mem_insertByte hc with rfl | hc
    · exact ha
    · exact h c hc

theorem writeWord_below {m : Memory} {a n : Nat} (w : Word) (h : Memory.below m n) (ha : a + 4 ≤ n) :
    Memory.below (Memory.writeWord m a w) n :=
  writeByte_below _ (writeByte_below _ (writeByte_below _ (writeByte_below _ h (by omega)) (by omega)) (by omega))
    (by omega)

theorem writeWords_below {m : Memory} {n : Nat} {ws : List (Nat × Word)} (h : Memory.below m n)
    (hw : ∀ w ∈ ws, w.1 + 4 ≤ n) : Memory.below (Memory.writeWords m ws) n := by
  induction ws generalizing m with
  | nil => exact h
  | cons w rest ih =>
    exact ih (writeWord_below _ h (hw w List.mem_cons_self)) fun u hu => hw u (List.mem_cons_of_mem _ hu)

end Sys2Proof.Machine
end

