-- ==== Sys2Proof/Laws/Image.lean ====
section
/-! SUPPORT. Laws of pixels and image layout (20_memory.md R73, R75, R81). -/

namespace Sys2Proof.Machine

/-! ### Pixels -/

@[simp] theorem pack_px (w : Word) : pack (px w) = w := by
  have h : w.extractLsb' 24 8 ++ w.extractLsb' 16 8 ++ w.extractLsb' 8 8 ++ w.extractLsb' 0 8 = w := word_of_bytes w
  exact h

@[simp] theorem px_pack (p : Pixel) : px (pack p) = p := by
  have h := bytes_of_word p.a p.r p.g p.b
  cases p
  simp only [pack, px, Pixel.mk.injEq]
  exact ⟨h.2.2.1, h.2.1, h.1, h.2.2.2⟩

/-- A pixel written as a word reads back. -/
theorem readPixel_eq (m : Memory) (base : Word) (w x y : Nat) :
    pack (readPixel m base w x y) = Memory.readWord m (pixelAddr base w x y) := pack_px _

/-! ### Image layout -/

theorem mem_pixelCoords {w h x y : Nat} : (x, y) ∈ pixelCoords w h ↔ x < w ∧ y < h := by
  simp [pixelCoords, and_comm]

theorem mem_imageWrites {base : Word} {w h : Nat} {f : Nat → Nat → Pixel} {u : Nat × Word} :
    u ∈ imageWrites base w h f ↔ ∃ x y, x < w ∧ y < h ∧ u = (pixelAddr base w x y, pack (f x y)) := by
  unfold imageWrites
  rw [List.mem_map]
  constructor
  · rintro ⟨⟨x, y⟩, hc, rfl⟩
    exact ⟨x, y, (mem_pixelCoords.mp hc).1, (mem_pixelCoords.mp hc).2, rfl⟩
  · rintro ⟨x, y, hx, hy, rfl⟩
    exact ⟨(x, y), mem_pixelCoords.mpr ⟨hx, hy⟩, rfl⟩

/-- Row-major positions of an image stay inside its region (R75). -/
theorem pixelIndex_lt {w h x y : Nat} (hx : x < w) (hy : y < h) : y * w + x < w * h := by
  calc y * w + x < y * w + w := by omega
    _ = (y + 1) * w := by ring
    _ ≤ h * w := Nat.mul_le_mul_right _ hy
    _ = w * h := Nat.mul_comm _ _

/-- Two different pixels have different positions. -/
theorem pixelIndex_inj {w x y x' y' : Nat} (hx : x < w) (hx' : x' < w) (h : y * w + x = y' * w + x') :
    x = x' ∧ y = y' := by
  have hw : 0 < w := by omega
  have h1 : (y * w + x) / w = y := by
    rw [Nat.mul_comm, Nat.mul_add_div hw, Nat.div_eq_of_lt hx, Nat.add_zero]
  have h2 : (y' * w + x') / w = y' := by
    rw [Nat.mul_comm, Nat.mul_add_div hw, Nat.div_eq_of_lt hx', Nat.add_zero]
  have hy : y = y' := by rw [← h1, ← h2, h]
  subst hy
  exact ⟨by omega, rfl⟩

theorem pixelCoords_nodup (w h : Nat) : (pixelCoords w h).Nodup := by
  unfold pixelCoords
  rw [List.nodup_flatMap]
  constructor
  · intro y _
    exact List.nodup_range.map fun a b e => by simpa using e
  · refine List.Pairwise.imp_of_mem ?_ (List.nodup_range (n := h))
    intro a b _ _ hab
    rw [Function.onFun, List.disjoint_left]
    rintro ⟨x, y⟩ h1 h2
    simp only [List.mem_map, List.mem_range, Prod.mk.injEq] at h1 h2
    obtain ⟨_, _, _, rfl⟩ := h1
    obtain ⟨_, _, _, rfl⟩ := h2
    exact hab rfl

/-- The words of one image share no byte (R81: each is written once). -/
theorem imageWrites_apart (base : Word) (w h : Nat) (f : Nat → Nat → Pixel) :
    WordsApart (imageWrites base w h f) := by
  unfold WordsApart imageWrites
  rw [List.pairwise_map]
  refine List.Pairwise.imp_of_mem ?_ (pixelCoords_nodup w h)
  rintro ⟨x, y⟩ ⟨x', y'⟩ h1 h2 hne
  have h1 := mem_pixelCoords.mp h1
  have h2 := mem_pixelCoords.mp h2
  simp only [pixelAddr]
  have : y * w + x ≠ y' * w + x' := fun e => hne (by
    obtain ⟨rfl, rfl⟩ := pixelIndex_inj h1.1 h2.1 e
    rfl)
  omega

/-- Every word of an image lies inside its region (R75). -/
theorem imageWrites_inside {base : Word} {w h : Nat} {f : Nat → Nat → Pixel} {u : Nat × Word}
    (hu : u ∈ imageWrites base w h f) : base.toNat ≤ u.1 ∧ u.1 + 4 ≤ base.toNat + 4 * (w * h) := by
  obtain ⟨x, y, hx, hy, rfl⟩ := mem_imageWrites.mp hu
  have := pixelIndex_lt hx hy
  simp only [pixelAddr]
  omega

/-- Two images in regions that do not meet share no byte. -/
theorem imageWrites_append_apart {b1 b2 : Word} {w h : Nat} {f g : Nat → Nat → Pixel}
    (hd : b1.toNat + 4 * (w * h) ≤ b2.toNat ∨ b2.toNat + 4 * (w * h) ≤ b1.toNat) :
    WordsApart (imageWrites b1 w h f ++ imageWrites b2 w h g) := by
  unfold WordsApart
  rw [List.pairwise_append]
  refine ⟨imageWrites_apart _ _ _ _, imageWrites_apart _ _ _ _, fun u hu v hv => ?_⟩
  have h1 := imageWrites_inside hu
  have h2 := imageWrites_inside hv
  omega

/-- Every byte inside an image region belongs to a word of the image. -/
theorem exists_word_of_inside {base : Word} {w h : Nat} {f : Nat → Nat → Pixel} {a : Nat}
    (h1 : base.toNat ≤ a) (h2 : a < base.toNat + 4 * (w * h)) :
    ∃ u ∈ imageWrites base w h f, u.1 ≤ a ∧ a < u.1 + 4 := by
  obtain ⟨d, rfl⟩ := Nat.exists_eq_add_of_le h1
  have hi : d / 4 < w * h := by omega
  have hw : 0 < w := Nat.pos_of_mul_pos_right (Nat.zero_lt_of_lt hi)
  refine ⟨(pixelAddr base w (d / 4 % w) (d / 4 / w), pack (f (d / 4 % w) (d / 4 / w))),
    mem_imageWrites.mpr ⟨_, _, Nat.mod_lt _ hw, Nat.div_lt_of_lt_mul hi, rfl⟩, ?_⟩
  have : d / 4 / w * w + d / 4 % w = d / 4 := by rw [Nat.mul_comm]; exact Nat.div_add_mod _ _
  simp only [pixelAddr, this]
  omega

/-- A clamped index is a legal one (R178). -/
theorem clampIndex_lt (i : Int) {n : Nat} (hn : 0 < n) : clampIndex i n < n := by
  have := clamp_bounds (lo := 0) (hi := (n : Int) - 1) (by omega) i
  unfold clampIndex
  omega

/-- A legal index is its own clamped value. -/
theorem clampIndex_of_lt {i n : Nat} (h : i < n) : clampIndex (i : Int) n = i := by
  unfold clampIndex clamp
  omega

end Sys2Proof.Machine
end

