-- ==== Sys2Proof/Laws/State.lean ====
section
/-! SUPPORT. One lemma for each field of each update of the state, true by `rfl`, so that no proof unfolds an update. -/

namespace Sys2Proof.Machine

section complete
variable (code : Option ErrorCode) (s : State)

@[simp] theorem complete_config : (complete code s).config = s.config := rfl
@[simp] theorem complete_mem : (complete code s).mem = s.mem := rfl
@[simp] theorem complete_host : (complete code s).host = s.host := rfl
@[simp] theorem complete_schedule : (complete code s).schedule = s.schedule := rfl
@[simp] theorem complete_reads : (complete code s).reads = s.reads := rfl
@[simp] theorem complete_draws : (complete code s).draws = s.draws := rfl
@[simp] theorem complete_engine : (complete code s).block.engine = .idle := rfl
@[simp] theorem complete_irqEn : (complete code s).block.irqEn = s.block.irqEn := rfl
@[simp] theorem complete_status : (complete code s).block.status = completedStatus code s.block.status := rfl
@[simp] theorem complete_cmd : (complete code s).block.cmd = s.block.cmd := rfl
@[simp] theorem complete_srcBase : (complete code s).block.srcBase = s.block.srcBase := rfl
@[simp] theorem complete_dstBase : (complete code s).block.dstBase = s.block.dstBase := rfl
@[simp] theorem complete_tmpBase : (complete code s).block.tmpBase = s.block.tmpBase := rfl
@[simp] theorem complete_width : (complete code s).block.width = s.block.width := rfl
@[simp] theorem complete_height : (complete code s).block.height = s.block.height := rfl
@[simp] theorem complete_srcLen : (complete code s).block.srcLen = s.block.srcLen := rfl
@[simp] theorem complete_radius : (complete code s).block.radius = s.block.radius := rfl
@[simp] theorem complete_param0 : (complete code s).block.param0 = s.block.param0 := rfl
@[simp] theorem complete_param1 : (complete code s).block.param1 = s.block.param1 := rfl
@[simp] theorem complete_convOffset : (complete code s).block.convOffset = s.block.convOffset := rfl
@[simp] theorem complete_m : (complete code s).block.m = s.block.m := rfl
@[simp] theorem complete_n : (complete code s).block.n = s.block.n := rfl
@[simp] theorem complete_k : (complete code s).block.k = s.block.k := rfl
@[simp] theorem complete_busy : (complete code s).block.busy = false := rfl

end complete

section completedStatus
variable (code : Option ErrorCode) (f : Status)

@[simp] theorem completedStatus_none : completedStatus none f = { f with done := true } := rfl
@[simp] theorem completedStatus_some (e : ErrorCode) :
    completedStatus (some e) f = { f with err := true, errCode := e.bits } := rfl

end completedStatus

section acceptStart
variable (b : Block)

@[simp] theorem acceptStart_engine : (acceptStart b).engine = .busy b.cmd := rfl
@[simp] theorem acceptStart_busy : (acceptStart b).busy = true := rfl
@[simp] theorem acceptStart_irqEn : (acceptStart b).irqEn = b.irqEn := rfl
@[simp] theorem acceptStart_cmd : (acceptStart b).cmd = b.cmd := rfl
@[simp] theorem acceptStart_done : (acceptStart b).status.done = false := rfl
@[simp] theorem acceptStart_err : (acceptStart b).status.err = false := rfl
@[simp] theorem acceptStart_errCode : (acceptStart b).status.errCode = 0 := rfl
@[simp] theorem acceptStart_wign : (acceptStart b).status.wign = b.status.wign := rfl

end acceptStart

section ignoreWrite
variable (b : Block)

@[simp] theorem ignoreWrite_engine : (ignoreWrite b).engine = b.engine := rfl
@[simp] theorem ignoreWrite_cmd : (ignoreWrite b).cmd = b.cmd := rfl
@[simp] theorem ignoreWrite_irqEn : (ignoreWrite b).irqEn = b.irqEn := rfl
@[simp] theorem ignoreWrite_done : (ignoreWrite b).status.done = b.status.done := rfl
@[simp] theorem ignoreWrite_err : (ignoreWrite b).status.err = b.status.err := rfl
@[simp] theorem ignoreWrite_errCode : (ignoreWrite b).status.errCode = b.status.errCode := rfl
@[simp] theorem ignoreWrite_wign : (ignoreWrite b).status.wign = true := rfl

end ignoreWrite

section recordRead
variable (s : State) (w : Word)

@[simp] theorem recordRead_config : (recordRead s w).config = s.config := rfl
@[simp] theorem recordRead_block : (recordRead s w).block = s.block := rfl
@[simp] theorem recordRead_mem : (recordRead s w).mem = s.mem := rfl
@[simp] theorem recordRead_host : (recordRead s w).host = s.host := rfl
@[simp] theorem recordRead_schedule : (recordRead s w).schedule = s.schedule := rfl
@[simp] theorem recordRead_reads : (recordRead s w).reads = w :: s.reads := rfl
@[simp] theorem recordRead_draws : (recordRead s w).draws = s.draws := rfl

end recordRead

section performSome
variable (s : State) (ws : List (Nat × Word))

@[simp] theorem performSome_config : (performSome s ws).config = s.config := rfl
@[simp] theorem performSome_block : (performSome s ws).block = s.block := rfl
@[simp] theorem performSome_mem : (performSome s ws).mem = Memory.writeWords s.mem (performedNow s ws) := rfl
@[simp] theorem performSome_host : (performSome s ws).host = s.host := rfl
@[simp] theorem performSome_schedule : (performSome s ws).schedule = s.schedule := rfl
@[simp] theorem performSome_reads : (performSome s ws).reads = s.reads := rfl
@[simp] theorem performSome_draws : (performSome s ws).draws = s.draws + 1 := rfl

end performSome

section resetBlock
variable (s : State)

@[simp] theorem resetBlock_config : (resetBlock s).config = s.config := rfl
@[simp] theorem resetBlock_block : (resetBlock s).block = Block.reset := rfl
@[simp] theorem resetBlock_mem :
    (resetBlock s).mem = Memory.writeWords s.mem (performedNow s (pendingWrites s)) := rfl
@[simp] theorem resetBlock_host : (resetBlock s).host = s.host := rfl
@[simp] theorem resetBlock_schedule : (resetBlock s).schedule = s.schedule := rfl
@[simp] theorem resetBlock_reads : (resetBlock s).reads = s.reads := rfl
@[simp] theorem resetBlock_draws : (resetBlock s).draws = s.draws + 1 := rfl

end resetBlock

section takeTurn
variable (s : State)

@[simp] theorem takeTurn_config : (takeTurn s).config = s.config := by unfold takeTurn; split <;> rfl
@[simp] theorem takeTurn_block : (takeTurn s).block = s.block := by unfold takeTurn; split <;> rfl
@[simp] theorem takeTurn_mem : (takeTurn s).mem = s.mem := by unfold takeTurn; split <;> rfl
@[simp] theorem takeTurn_host : (takeTurn s).host = s.host := by unfold takeTurn; split <;> rfl
@[simp] theorem takeTurn_reads : (takeTurn s).reads = s.reads := by unfold takeTurn; split <;> rfl
@[simp] theorem takeTurn_draws : (takeTurn s).draws = s.draws := by unfold takeTurn; split <;> rfl

end takeTurn

end Sys2Proof.Machine
end

