-- ==== Sys2Proof/Laws/Command.lean ====
section
/-! SUPPORT. Laws of the check and execute phases: what the checks decide, the one equation every command satisfies, and
what a command's writes are (40_command_lifecycle.md R122 to R130, 20_memory.md R80, R81). -/

namespace Sys2Proof.Machine

/-! ### The checks -/

theorem dimensionsBad_eq_false {b : Block} : dimensionsBad b = false ↔
    0 < b.width.toInt ∧ 0 < b.height.toInt ∧ (b.srcLen.toNat : Int) = b.width.toInt * b.height.toInt := by
  simp only [dimensionsBad, Bool.or_eq_false_iff, decide_eq_false_iff_not, not_le, ne_eq, not_not, and_assoc]
  rfl

theorem regionUnusable_eq_false {c : Config} {base : Word} {n : Int} : regionUnusable c base n = false ↔
    base.toNat % 4 = 0 ∧ (base.toNat : Int) + n ≤ c.memSize := by
  simp only [regionUnusable, Bool.or_eq_false_iff, decide_eq_false_iff_not, ne_eq, not_not, not_lt]
  rfl

theorem regionsOverlap_eq_false {a b : Word} {n : Int} : regionsOverlap a b n = false ↔
    (b.toNat : Int) + n ≤ a.toNat ∨ (a.toNat : Int) + n ≤ b.toNat := by
  simp only [regionsOverlap, Bool.and_eq_false_iff, decide_eq_false_iff_not, not_lt]
  rfl

theorem regionBytes_eq (b : Block) : regionBytes b = imageLen b := rfl

/-- The checks of an image command pass exactly when R122 to R125 ask nothing more. -/
theorem imageCheck_eq_none {usesTmp : Bool} {s : State} : imageCheck usesTmp s.config s.block = none ↔
    ImageReady s ∧ (usesTmp = true → TmpReady s) := by
  unfold imageCheck
  constructor
  · intro h
    split_ifs at h with h1 h2 h3 h4
    simp only [Bool.not_eq_true] at h1 h2 h3 h4
    obtain ⟨w, hh, l⟩ := dimensionsBad_eq_false.mp h1
    obtain ⟨sa, si⟩ := regionUnusable_eq_false.mp h2
    simp only [destinationBad, Bool.or_eq_false_iff] at h3
    obtain ⟨da, di⟩ := regionUnusable_eq_false.mp h3.1
    refine ⟨⟨w, hh, l, sa, si, da, di, regionsOverlap_eq_false.mp h3.2⟩, fun hu => ?_⟩
    subst hu
    simp only [Bool.true_and, intermediateBad, Bool.or_eq_false_iff] at h4
    obtain ⟨ta, ti⟩ := regionUnusable_eq_false.mp h4.1.1
    exact ⟨ta, ti, regionsOverlap_eq_false.mp h4.1.2, regionsOverlap_eq_false.mp h4.2⟩
  · rintro ⟨r, ht⟩
    have h1 : dimensionsBad s.block = false := dimensionsBad_eq_false.mpr ⟨r.width, r.height, r.length⟩
    have h2 : regionUnusable s.config s.block.srcBase (regionBytes s.block) = false :=
      regionUnusable_eq_false.mpr ⟨r.srcAligned, r.srcInside⟩
    have h3 : destinationBad s.config s.block = false := by
      simp only [destinationBad, Bool.or_eq_false_iff]
      exact ⟨regionUnusable_eq_false.mpr ⟨r.dstAligned, r.dstInside⟩, regionsOverlap_eq_false.mpr r.dstApart⟩
    have h4 : (usesTmp && intermediateBad s.config s.block) = false := by
      cases usesTmp with
      | false => rfl
      | true =>
        have t := ht rfl
        simp only [Bool.true_and, intermediateBad, Bool.or_eq_false_iff]
        exact ⟨⟨regionUnusable_eq_false.mpr ⟨t.tmpAligned, t.tmpInside⟩, regionsOverlap_eq_false.mpr t.srcApart⟩,
          regionsOverlap_eq_false.mpr t.dstApart⟩
    simp [h1, h2, h3, h4]

/-! ### Every command, in one equation -/

/-- The check phase of a command (R122): none fails for the five that touch no memory (R130). -/
def commandCheck (i : Instr) (s : State) : Option ErrorCode :=
  match imageUsesTmp i with
  | none => none
  | some usesTmp => imageCheck usesTmp s.config s.block

/-- What a command does to the coefficient registers; image commands write none (R32). -/
def commandEffect (i : Instr) (b : Block) : Block :=
  match i with
  | .nop => b
  | .mIdent => { b with m := storeMatrix identityMatrix }
  | .nSat => { b with n := storeMatrix (saturationMatrix (sext b.param0)) }
  | .nScaleOff => { b with n := storeMatrix (scaleOffsetMatrix (sext b.param0) (sext b.param1)) }
  | .mCompose => { b with m := composeMatrix b.n b.m }
  | .matApply => b
  | .convApply => b
  | .blurApply => b

theorem commandCheck_eq_none {i : Instr} {s : State} : commandCheck i s = none ↔ CommandReady i s := by
  cases i <;> simp only [commandCheck, CommandReady, imageUsesTmp, imageCheck_eq_none]

/-- Everything a command can do: its effect, its writes and its completion with the code of its check. -/
theorem exec_eq (i : Instr) (s : State) :
    exec i s = .next (complete (commandCheck i s)
      { s with block := commandEffect i s.block, mem := Memory.writeWords s.mem (commandWrites i s) }) := by
  have image : ∀ usesTmp writes, runImage usesTmp writes s = .next (complete (imageCheck usesTmp s.config s.block)
      { s with mem := Memory.writeWords s.mem
                (if imageCheck usesTmp s.config s.block = none then writes s.block s.mem else []) }) := by
    intro usesTmp writes
    unfold runImage
    cases imageCheck usesTmp s.config s.block <;> rfl
  cases i
  case matApply => exact image false matApplyWrites
  case convApply => exact image false convApplyWrites
  case blurApply => exact image true blurApplyWrites
  all_goals rfl

/-- A command never stops with a fault or a refusal (R126, R268). -/
theorem exec_next (i : Instr) (s : State) : ∃ t, exec i s = .next t := ⟨_, exec_eq i s⟩

/-- A command that is ready succeeds (R127). -/
theorem exec_ready {i : Instr} {s : State} (h : CommandReady i s) :
    exec i s = .next (doneWith { s with mem := Memory.writeWords s.mem (commandWrites i s) } (commandEffect i s.block)) := by
  rw [exec_eq, commandCheck_eq_none.mpr h]
  rfl

/-! ### What a command writes -/

/-- W × H as a count of pixels, for an image that is ready. -/
theorem imageLen_eq {s : State} (h : ImageReady s) :
    imageLen s.block = (4 * (imageWidth s.block * imageHeight s.block) : Nat) := by
  have hw := h.width
  have hh := h.height
  unfold imageLen imageWidth imageHeight sext
  push_cast
  rw [Int.toNat_of_nonneg hw.le, Int.toNat_of_nonneg hh.le]
  ring

theorem imageWidth_pos {s : State} (h : ImageReady s) : 0 < imageWidth s.block := by
  have := h.width
  unfold imageWidth sext
  omega

theorem imageHeight_pos {s : State} (h : ImageReady s) : 0 < imageHeight s.block := by
  have := h.height
  unfold imageHeight sext
  omega

/-- A command that is not ready writes nothing (R126). -/
theorem commandWrites_of_not_ready {i : Instr} {s : State} (h : ¬ CommandReady i s) : commandWrites i s = [] := by
  have h := mt commandCheck_eq_none.mp h
  cases i <;> simp_all [commandCheck, commandWrites, imageUsesTmp]

/-- The words a command writes share no byte (R81). -/
theorem commandWrites_apart (i : Instr) (s : State) : WordsApart (commandWrites i s) := by
  by_cases h : CommandReady i s
  · have h' := commandCheck_eq_none.mpr h
    cases i <;> simp only [commandCheck, imageUsesTmp] at h' <;> simp only [commandWrites, h', if_true]
    case matApply => exact imageWrites_apart _ _ _ _
    case convApply => exact imageWrites_apart _ _ _ _
    case blurApply =>
      obtain ⟨r, t⟩ := imageCheck_eq_none.mp h'
      have e := imageLen_eq r
      have := (t rfl).dstApart
      exact imageWrites_append_apart (by omega)
    all_goals exact List.Pairwise.nil
  · rw [commandWrites_of_not_ready h]
    exact List.Pairwise.nil

/-- Every byte of a word a command writes lies in its output regions (R80). -/
theorem commandWrites_inOutput {i : Instr} {s : State} {u : Nat × Word} (hu : u ∈ commandWrites i s)
    {a : Nat} (h1 : u.1 ≤ a) (h2 : a < u.1 + 4) : InOutput i s.block a := by
  by_cases h : CommandReady i s
  · have h' := commandCheck_eq_none.mpr h
    have region : ∀ (base : Word) (f : Nat → Nat → Pixel), ImageReady s →
        u ∈ imageWrites base (imageWidth s.block) (imageHeight s.block) f → InRegion s.block base a := by
      intro base f r hm
      have := imageWrites_inside hm
      have e := imageLen_eq r
      exact ⟨by omega, by omega⟩
    cases i <;> simp only [commandCheck, imageUsesTmp] at h' <;>
      simp only [commandWrites, h', if_true, List.not_mem_nil] at hu
    case matApply => exact .inl (region _ _ (imageCheck_eq_none.mp h').1 hu)
    case convApply => exact .inl (region _ _ (imageCheck_eq_none.mp h').1 hu)
    case blurApply =>
      rcases List.mem_append.mp hu with hu | hu
      · exact .inr ⟨rfl, region _ _ (imageCheck_eq_none.mp h').1 hu⟩
      · exact .inl (region _ _ (imageCheck_eq_none.mp h').1 hu)
  · rw [commandWrites_of_not_ready h] at hu
    cases hu

/-- Every byte of the output regions of a command that is ready belongs to a word it writes (R81). -/
theorem exists_commandWrite {i : Instr} {s : State} (h : CommandReady i s) {a : Nat} (ha : InOutput i s.block a) :
    ∃ u ∈ commandWrites i s, u.1 ≤ a ∧ a < u.1 + 4 := by
  have h' := commandCheck_eq_none.mpr h
  have region : ∀ (base : Word) (f : Nat → Nat → Pixel), ImageReady s → InRegion s.block base a →
      ∃ u ∈ imageWrites base (imageWidth s.block) (imageHeight s.block) f, u.1 ≤ a ∧ a < u.1 + 4 := by
    intro base f r hr
    have e := imageLen_eq r
    exact exists_word_of_inside hr.1 (by have := hr.2; omega)
  cases i <;> simp only [InOutput, imageUsesTmp] at ha <;> simp only [commandCheck, imageUsesTmp] at h' <;>
    simp only [commandWrites, h', if_true]
  case matApply => exact region _ _ (imageCheck_eq_none.mp h').1 (by simpa using ha)
  case convApply => exact region _ _ (imageCheck_eq_none.mp h').1 (by simpa using ha)
  case blurApply =>
    rcases ha with ha | ⟨_, ha⟩
    · obtain ⟨u, hu, h1⟩ := region s.block.dstBase (blurDstPixel s.block s.mem) (imageCheck_eq_none.mp h').1 ha
      exact ⟨u, List.mem_append_right _ hu, h1⟩
    · obtain ⟨u, hu, h1⟩ := region s.block.tmpBase (blurTmpPixel s.block s.mem) (imageCheck_eq_none.mp h').1 ha
      exact ⟨u, List.mem_append_left _ hu, h1⟩

/-- Every word a command writes lies inside memory (R71). -/
theorem commandWrites_below {i : Instr} {s : State} {u : Nat × Word} (hu : u ∈ commandWrites i s) :
    u.1 + 4 ≤ s.config.memSize := by
  have h3 := commandWrites_inOutput hu (a := u.1 + 3) (by omega) (by omega)
  by_cases h : CommandReady i s
  · have h' := commandCheck_eq_none.mpr h
    cases i <;> simp only [commandCheck, imageUsesTmp] at h' <;> simp only [InOutput, imageUsesTmp] at h3
    case matApply =>
      obtain ⟨r, _⟩ := imageCheck_eq_none.mp h'
      have h4 := r.dstInside
      have h5 : InRegion s.block s.block.dstBase (u.1 + 3) := by simpa using h3
      have h6 := h5.2
      push_cast at h6
      omega
    case convApply =>
      obtain ⟨r, _⟩ := imageCheck_eq_none.mp h'
      have h4 := r.dstInside
      have h5 : InRegion s.block s.block.dstBase (u.1 + 3) := by simpa using h3
      have h6 := h5.2
      push_cast at h6
      omega
    case blurApply =>
      obtain ⟨r, t⟩ := imageCheck_eq_none.mp h'
      have h4 := r.dstInside
      have h4' := (t rfl).tmpInside
      rcases h3 with h5 | ⟨_, h5⟩ <;>
      · have h6 := h5.2
        push_cast at h6
        omega
  · rw [commandWrites_of_not_ready h] at hu
    cases hu

/-! ### What a command reads -/

/-- Pixels inside the source region of an image that is ready depend on the bytes of that region only. -/
theorem readPixel_congr {s : State} {m' : Memory} (r : ImageReady s)
    (h : ∀ a, InRegion s.block s.block.srcBase a → Memory.readByte m' a = Memory.readByte s.mem a)
    {x y : Nat} (hx : x < imageWidth s.block) (hy : y < imageHeight s.block) :
    readPixel m' s.block.srcBase (imageWidth s.block) x y = readPixel s.mem s.block.srcBase (imageWidth s.block) x y := by
  unfold readPixel
  rw [readWord_congr]
  intro c h1 h2
  apply h
  have e := imageLen_eq r
  have := pixelIndex_lt hx hy
  simp only [pixelAddr] at h1 h2
  exact ⟨by omega, by omega⟩

theorem sampleClamped_congr {s : State} {m' : Memory} (r : ImageReady s)
    (h : ∀ a, InRegion s.block s.block.srcBase a → Memory.readByte m' a = Memory.readByte s.mem a) (x y : Int) :
    sampleClamped m' s.block.srcBase (imageWidth s.block) (imageHeight s.block) x y =
      sampleClamped s.mem s.block.srcBase (imageWidth s.block) (imageHeight s.block) x y :=
  readPixel_congr r h (clampIndex_lt _ (imageWidth_pos r)) (clampIndex_lt _ (imageHeight_pos r))

theorem imageWrites_congr {base : Word} {w h : Nat} {f g : Nat → Nat → Pixel}
    (e : ∀ x y, x < w → y < h → f x y = g x y) : imageWrites base w h f = imageWrites base w h g := by
  unfold imageWrites
  apply List.map_congr_left
  rintro ⟨x, y⟩ hc
  rw [e x y (mem_pixelCoords.mp hc).1 (mem_pixelCoords.mp hc).2]

/-- A command's writes depend on the registers, the open parameters and the bytes of SRC only (R3). -/
theorem commandWrites_congr {i : Instr} {s s' : State} (hb : s'.block = s.block) (hc : s'.config = s.config)
    (h : ∀ a, InRegion s.block s.block.srcBase a → Memory.readByte s'.mem a = Memory.readByte s.mem a) :
    commandWrites i s' = commandWrites i s := by
  by_cases hr : CommandReady i s
  · have h' := commandCheck_eq_none.mpr hr
    cases i <;> simp only [commandCheck, imageUsesTmp] at h' <;> simp only [commandWrites, hb, hc, h', if_true]
    case matApply =>
      exact imageWrites_congr fun x y hx hy => by rw [readPixel_congr (imageCheck_eq_none.mp h').1 h hx hy]
    case convApply =>
      refine imageWrites_congr fun x y hx hy => ?_
      have r := (imageCheck_eq_none.mp h').1
      unfold convPixel
      rw [readPixel_congr r h hx hy]
      simp only [sampleClamped_congr r h]
    case blurApply =>
      have r := (imageCheck_eq_none.mp h').1
      have e : ∀ c x y, blurHorizontal s.block s'.mem c x y = blurHorizontal s.block s.mem c x y := by
        intro c x y
        unfold blurHorizontal
        simp only [sampleClamped_congr r h]
      unfold blurApplyWrites
      refine congr_arg₂ _ (imageWrites_congr fun x y _ _ => ?_) (imageWrites_congr fun x y _ _ => ?_)
      · simp only [blurTmpPixel, e]
      · simp only [blurDstPixel, blurVertical, e]
  · have hr' : ¬ CommandReady i s' := by
      have hr := mt commandCheck_eq_none.mp hr
      refine mt commandCheck_eq_none.mpr ?_
      unfold commandCheck at hr ⊢
      rwa [hb, hc]
    rw [commandWrites_of_not_ready hr, commandWrites_of_not_ready hr']

/-- A ready command's output regions do not meet its SRC (R80, R124, R125). -/
theorem not_inOutput_of_inSource {i : Instr} {s : State} (h : CommandReady i s) {a : Nat}
    (ha : InRegion s.block s.block.srcBase a) : ¬ InOutput i s.block a := by
  intro ho
  have h1 := ha.1
  have h2 := ha.2
  cases i <;> simp only [InOutput, imageUsesTmp] at ho <;> simp only [CommandReady, imageUsesTmp] at h
  case matApply =>
    have ho : InRegion s.block s.block.dstBase a := by simpa using ho
    have := h.1.dstApart
    have := ho.1
    have := ho.2
    omega
  case convApply =>
    have ho : InRegion s.block s.block.dstBase a := by simpa using ho
    have := h.1.dstApart
    have := ho.1
    have := ho.2
    omega
  case blurApply =>
    have := h.1.dstApart
    have := (h.2 trivial).srcApart
    rcases ho with ho | ⟨_, ho⟩ <;>
    · have := ho.1
      have := ho.2
      omega

end Sys2Proof.Machine
end

