-- ==== Sys2Proof/Laws/PerInstr.lean ====
section
/-! SUPPORT. Facts about every command as syntax, one lemma for each constructor: the word the encoder writes for it is
a well-formed command word that holds its opcode and nothing else (30_encoding.md R100 to R102). -/

/-- The word of a command is well formed and is its opcode, zero-extended: RSVD = 0 and OP below 8 (R100, R102). -/
def Sys2Proof.Laws.Encoding.Statement (i : Sys2Proof.Instr) : Prop :=
  i.wellFormed = true ∧ Sys2Proof.Word.wellFormed (Sys2Proof.encode i) = true ∧
    (Sys2Proof.encode i).toNat = i.opcode.toNat ∧ Sys2Proof.Word.op (Sys2Proof.encode i) = i.opcode

theorem Sys2Proof.Laws.Encoding.nop : Sys2Proof.Laws.Encoding.Statement .nop := by
  unfold Sys2Proof.Laws.Encoding.Statement; decide

theorem Sys2Proof.Laws.Encoding.mIdent : Sys2Proof.Laws.Encoding.Statement .mIdent := by
  unfold Sys2Proof.Laws.Encoding.Statement; decide

theorem Sys2Proof.Laws.Encoding.nSat : Sys2Proof.Laws.Encoding.Statement .nSat := by
  unfold Sys2Proof.Laws.Encoding.Statement; decide

theorem Sys2Proof.Laws.Encoding.nScaleOff : Sys2Proof.Laws.Encoding.Statement .nScaleOff := by
  unfold Sys2Proof.Laws.Encoding.Statement; decide

theorem Sys2Proof.Laws.Encoding.mCompose : Sys2Proof.Laws.Encoding.Statement .mCompose := by
  unfold Sys2Proof.Laws.Encoding.Statement; decide

theorem Sys2Proof.Laws.Encoding.matApply : Sys2Proof.Laws.Encoding.Statement .matApply := by
  unfold Sys2Proof.Laws.Encoding.Statement; decide

theorem Sys2Proof.Laws.Encoding.convApply : Sys2Proof.Laws.Encoding.Statement .convApply := by
  unfold Sys2Proof.Laws.Encoding.Statement; decide

theorem Sys2Proof.Laws.Encoding.blurApply : Sys2Proof.Laws.Encoding.Statement .blurApply := by
  unfold Sys2Proof.Laws.Encoding.Statement; decide
end

