-- ==== Sys2Proof/Laws/Registers.lean ====
section
/-! SUPPORT. Laws of the register window: the map and its inverse, what a stored register reads as, and everything a
register write can do (10_state.md R33 to R40). -/

namespace Sys2Proof.Machine

/-! ### The map (R33) -/

theorem regOffset_lt (r : Reg) : regOffset r < 4096 := by
  cases r <;> simp only [regOffset] <;> omega

theorem regOffset_aligned (r : Reg) : regOffset r % 4 = 0 := by
  cases r <;> simp only [regOffset] <;> omega

/-- The offset of a register names it. -/
@[simp] theorem regAt_regOffset (r : Reg) : regAt (regOffset r) = r := by
  cases r with
  | m i => revert i; decide
  | n i => revert i; decide
  | k i => revert i; decide
  | _ => rfl

/-! ### A stored register -/

section storeReg
variable (b : Block) (w : Word) (r : Reg)

@[simp] theorem storeReg_engine : (storeReg b w r).engine = b.engine := by cases r <;> rfl
@[simp] theorem storeReg_irqEn : (storeReg b w r).irqEn = b.irqEn := by cases r <;> rfl
@[simp] theorem storeReg_status : (storeReg b w r).status = b.status := by cases r <;> rfl
@[simp] theorem storeReg_busy : (storeReg b w r).busy = b.busy := by cases r <;> rfl

end storeReg

/-- A RW register holds the whole word stored in it. -/
theorem readReg_storeReg_same (b : Block) (w : Word) {r : Reg} (h : isReadWrite r = true) :
    readReg (storeReg b w r) r = w := by
  cases r <;> first | (cases h; done) | rfl | simp [readReg, storeReg]

/-- Storing a register leaves every other register as it was. -/
theorem readReg_storeReg_other (b : Block) (w : Word) {r r' : Reg} (h : r' ≠ r) :
    readReg (storeReg b w r) r' = readReg b r' := by
  cases r with
  | m i => cases r' with
    | m j =>
      have hv : i.val ≠ j.val := fun e => h (congrArg Reg.m (Fin.ext e.symm))
      simp [readReg, storeReg, Vector.getElem_set_ne, hv]
    | _ => rfl
  | n i => cases r' with
    | n j =>
      have hv : i.val ≠ j.val := fun e => h (congrArg Reg.n (Fin.ext e.symm))
      simp [readReg, storeReg, Vector.getElem_set_ne, hv]
    | _ => rfl
  | k i => cases r' with
    | k j =>
      have hv : i.val ≠ j.val := fun e => h (congrArg Reg.k (Fin.ext e.symm))
      simp [readReg, storeReg, Vector.getElem_set_ne, hv]
    | _ => rfl
  | _ => cases r' <;> first | rfl | exact absurd rfl h

/-! ### A register write -/

/-- Everything a write to CTRL without SRST can do (R35): IRQ_EN is set, and a START is accepted while IDLE or ignored
with WIGN while BUSY. -/
theorem writeCtrl_cases (b : Block) (w : Word) :
    writeCtrl b w = { b with irqEn := w.getLsbD 1 } ∨
      (b.engine = .idle ∧ writeCtrl b w = acceptStart { b with irqEn := w.getLsbD 1 }) ∨
        ∃ cur, b.engine = .busy cur ∧ writeCtrl b w = ignoreWrite { b with irqEn := w.getLsbD 1 } := by
  unfold writeCtrl
  split
  · unfold applyStart
    rcases he : b.engine with _ | cur <;> simp
  · exact .inl rfl

/-- Everything a register write can do: nothing, a register stored while IDLE, WIGN set while BUSY, a CTRL write or a
STATUS write. -/
theorem writeReg_cases (b : Block) (w : Word) (r : Reg) :
    writeReg b w r = b ∨ (b.engine = .idle ∧ isReadWrite r = true ∧ writeReg b w r = storeReg b w r) ∨
      (∃ cur, b.engine = .busy cur ∧ isReadWrite r = true ∧ writeReg b w r = ignoreWrite b) ∨
        (r = .ctrl ∧ writeReg b w r = writeCtrl b w) ∨
          (r = .status ∧ writeReg b w r = { b with status := clearStatus w b.status }) := by
  by_cases hr : isReadWrite r = true
  · have e : writeReg b w r = match b.engine with
        | .idle => storeReg b w r
        | .busy _ => ignoreWrite b := by
      cases r <;> first | (cases hr; done) | rfl
    rw [e]
    rcases he : b.engine with _ | cur
    · exact .inr (.inl ⟨rfl, hr, rfl⟩)
    · exact .inr (.inr (.inl ⟨cur, rfl, hr, rfl⟩))
  · cases r <;> simp_all [isReadWrite, writeReg]

end Sys2Proof.Machine
end

