-- ==== Sys2Proof/Laws/Step.lean ====
section
/-! SUPPORT. Laws of a step: who moves, what the engine's move and each host move can do, and what a running command's
writes are at that moment (R86, R120 to R131, R262). -/

namespace Sys2Proof.Machine

/-! ### Who moves -/

theorem whoMoves_idle {s : State} (h : s.block.engine = .idle) : whoMoves s = .host := by
  simp [whoMoves, h]

theorem takeTurn_idle {s : State} (h : s.block.engine = .idle) : takeTurn s = s := by
  simp [takeTurn, h]

theorem takeTurn_busy {s : State} {cur : Word} (h : s.block.engine = .busy cur) :
    takeTurn s = { s with schedule := s.schedule.tail } := by
  simp [takeTurn, h]

theorem whoMoves_engine {s : State} (h : EngineTurn s) : whoMoves s = .engine := by
  obtain ⟨hb, ht⟩ := h
  unfold Block.busy at hb
  unfold whoMoves
  split
  · rename_i e
    rw [e] at hb
    cases hb
  · rcases ht with ht | ht | ⟨rest, ht⟩ <;> rw [ht]
    split <;> first | rfl | (rename_i h; cases h)

/-- A step is the engine's move or the host's (R30). -/
theorem step_cases (s : State) :
    (whoMoves s = .engine ∧ step s = engineStep (takeTurn s)) ∨
      (whoMoves s = .host ∧ step s = hostStep (takeTurn s)) := by
  unfold step moveOf
  cases whoMoves s
  · exact .inl ⟨rfl, rfl⟩
  · exact .inr ⟨rfl, rfl⟩

/-! ### The engine's move -/

theorem engineStep_idle {s : State} (h : s.block.engine = .idle) : engineStep s = .next s := by
  simp [engineStep, h]

theorem engineStep_ok {s : State} {cur : Word} {i : Instr} (h : s.block.engine = .busy cur) (hd : decode cur = .ok i) :
    engineStep s = exec i s := by
  simp [engineStep, h, hd]

theorem engineStep_error {s : State} {cur : Word} {e : DecodeError} (h : s.block.engine = .busy cur)
    (hd : decode cur = .error e) : engineStep s = .next (complete (some .illegalCommand) s) := by
  simp [engineStep, h, hd]

/-- Everything the engine's move can do: nothing while IDLE, the command's one equation, or IllegalCommand. -/
theorem engineStep_cases (s : State) :
    (s.block.engine = .idle ∧ engineStep s = .next s) ∨
      (∃ cur i, s.block.engine = .busy cur ∧ decode cur = .ok i ∧ engineStep s = exec i s) ∨
        ∃ cur e, s.block.engine = .busy cur ∧ decode cur = .error e ∧
          engineStep s = .next (complete (some .illegalCommand) s) := by
  rcases he : s.block.engine with _ | cur
  · exact .inl ⟨rfl, engineStep_idle he⟩
  · rcases hd : decode cur with e | i
    · exact .inr (.inr ⟨cur, e, rfl, hd, engineStep_error he hd⟩)
    · exact .inr (.inl ⟨cur, i, rfl, hd, engineStep_ok he hd⟩)

/-- The engine's move never stops (R126, R129). -/
theorem engineStep_next (s : State) : ∃ t, engineStep s = .next t ∧ t.block.engine = .idle ∧ t.config = s.config := by
  rcases engineStep_cases s with ⟨h, e⟩ | ⟨_, i, _, _, e⟩ | ⟨_, _, _, _, e⟩
  · exact ⟨s, e, h, rfl⟩
  · exact ⟨_, e.trans (exec_eq i s), rfl, rfl⟩
  · exact ⟨_, e, rfl, rfl⟩

/-! ### The running command's writes -/

theorem pendingWrites_idle {s : State} (h : s.block.engine = .idle) : pendingWrites s = [] := by
  simp [pendingWrites, h]

theorem pendingWrites_ok {s : State} {cur : Word} {i : Instr} (h : s.block.engine = .busy cur)
    (hd : decode cur = .ok i) : pendingWrites s = commandWrites i s := by
  simp [pendingWrites, h, hd]

theorem pendingWrites_error {s : State} {cur : Word} {e : DecodeError} (h : s.block.engine = .busy cur)
    (hd : decode cur = .error e) : pendingWrites s = [] := by
  simp [pendingWrites, h, hd]

/-- A running command whose checks are going to fail has no pending writes (R126). -/
theorem pendingWrites_of_not_ready {s : State} {cur : Word} {i : Instr} (h : s.block.engine = .busy cur)
    (hd : decode cur = .ok i) (hr : ¬ CommandReady i s) : pendingWrites s = [] :=
  (pendingWrites_ok h hd).trans (commandWrites_of_not_ready hr)

/-- The pending writes are none, or those of the decoded running command. -/
theorem pendingWrites_cases (s : State) :
    pendingWrites s = [] ∨
      ∃ cur i, s.block.engine = .busy cur ∧ decode cur = .ok i ∧ pendingWrites s = commandWrites i s := by
  rcases he : s.block.engine with _ | cur
  · exact .inl (pendingWrites_idle he)
  · rcases hd : decode cur with e | i
    · exact .inl (pendingWrites_error he hd)
    · exact .inr ⟨cur, i, rfl, hd, pendingWrites_ok he hd⟩

theorem pendingWrites_apart (s : State) : WordsApart (pendingWrites s) := by
  rcases pendingWrites_cases s with h | ⟨_, i, _, _, h⟩ <;> rw [h]
  · exact List.Pairwise.nil
  · exact commandWrites_apart i s

theorem pendingWrites_below {s : State} {u : Nat × Word} (hu : u ∈ pendingWrites s) :
    u.1 + 4 ≤ s.config.memSize := by
  rcases pendingWrites_cases s with h | ⟨_, i, _, _, h⟩ <;> rw [h] at hu
  · cases hu
  · exact commandWrites_below hu

@[simp] theorem performedNow_nil (s : State) : performedNow s [] = [] := rfl

theorem performedNow_subset {s : State} {ws : List (Nat × Word)} {u : Nat × Word} (hu : u ∈ performedNow s ws) :
    u ∈ ws := List.mem_of_mem_filter hu

theorem performedNow_apart {s : State} {ws : List (Nat × Word)} (h : WordsApart ws) :
    WordsApart (performedNow s ws) := h.filter _

/-- Performing some writes keeps the canonical form. -/
theorem performSome_wf {s : State} (ws : List (Nat × Word)) (h : Memory.wf s.mem) :
    Memory.wf (performSome s ws).mem := writeWords_wf _ h

theorem performSome_below {s : State} {ws : List (Nat × Word)} (h : Memory.below s.mem s.config.memSize)
    (hw : ∀ u ∈ ws, u.1 + 4 ≤ s.config.memSize) : Memory.below (performSome s ws).mem s.config.memSize :=
  writeWords_below h fun u hu => hw u (performedNow_subset hu)

/-- Each word among `ws` is, after some of them are performed, its old or its final value (R86, R283). -/
theorem performSome_word {s : State} {ws : List (Nat × Word)} (hp : WordsApart ws) {a : Nat} {v : Word}
    (h : (a, v) ∈ ws) : Memory.readWord (performSome s ws).mem a = Memory.readWord s.mem a ∨
      Memory.readWord (performSome s ws).mem a = v := by
  by_cases hc : (a, v) ∈ performedNow s ws
  · exact .inr (readWord_writeWords_mem (performedNow_apart hp) hc)
  · refine .inl (readWord_congr fun c h1 h2 => readByte_writeWords_outside fun u hu => ?_)
    by_contra hn
    have hu' := performedNow_subset hu
    have : u = (a, v) := by
      by_contra hne
      have := wordsApart_of_mem hp hu' h hne
      simp only at this
      omega
    exact hc (this ▸ hu)

/-- A byte outside the words of `ws` is as before. -/
theorem performSome_outside {s : State} {ws : List (Nat × Word)} {c : Nat} (h : ∀ u ∈ ws, c < u.1 ∨ u.1 + 4 ≤ c) :
    Memory.readByte (performSome s ws).mem c = Memory.readByte s.mem c :=
  readByte_writeWords_outside fun u hu => h u (performedNow_subset hu)

/-! ### The host's moves -/

/-- The admitted register accesses (R77): aligned, 32 bits, inside the window. -/
theorem windowOffset_ok {c : Config} {off : Nat} (h : off < 4096) (ha : off % 4 = 0) :
    windowOffset c (c.regBase + off) 4 = .ok off := by
  unfold windowOffset
  rw [if_neg (by omega), if_neg (by omega), Nat.add_sub_cancel_left]

theorem hostRegWrite_ok {s : State} {off : Nat} (w : Word) (h : off < 4096) (ha : off % 4 = 0) :
    hostRegWrite s (s.config.regBase + off) 4 w = .next (busWrite s off w) := by
  simp [hostRegWrite, windowOffset_ok h ha]

theorem hostRegRead_ok {s : State} {off : Nat} (h : off < 4096) (ha : off % 4 = 0) :
    hostRegRead s (s.config.regBase + off) 4 = .next (recordRead s (readReg s.block (regAt off))) := by
  simp [hostRegRead, windowOffset_ok h ha]

/-- Everything a register store can do. -/
theorem hostRegWrite_cases {s t : State} {addr bytes : Nat} {w : Word} (h : hostRegWrite s addr bytes w = .next t) :
    ∃ off, windowOffset s.config addr bytes = .ok off ∧ t = busWrite s off w := by
  unfold hostRegWrite at h
  split at h
  · cases h
  · rename_i off e
    cases h
    exact ⟨off, e, rfl⟩

/-- Everything a register load can do: it changes the record of reads only (R79). -/
theorem hostRegRead_cases {s t : State} {addr bytes : Nat} (h : hostRegRead s addr bytes = .next t) :
    ∃ w, t = recordRead s w := by
  unfold hostRegRead at h
  split at h <;> cases h
  exact ⟨_, rfl⟩

/-- Everything a memory store can do. -/
theorem hostStore_cases {s t : State} {addr len : Nat} {f : Memory → Memory} (h : hostStore s addr len f = .next t) :
    addr + len ≤ s.config.memSize ∧ meetsRunningRegion s.block addr len = false ∧ t = { s with mem := f s.mem } := by
  unfold hostStore at h
  split_ifs at h with h1 h2
  cases h
  exact ⟨by omega, by simpa using h2, rfl⟩

/-- Everything a memory load can do (R86). -/
theorem hostLoad_cases {s t : State} {addr len : Nat} {f : Memory → Word} (h : hostLoad s addr len f = .next t) :
    addr + len ≤ s.config.memSize ∧
      t = recordRead (performSome s (visibleWrites s addr len)) (f (performSome s (visibleWrites s addr len)).mem) := by
  unfold hostLoad at h
  split_ifs at h with h1
  cases h
  exact ⟨by omega, rfl⟩

theorem visibleWrites_subset {s : State} {addr len : Nat} {u : Nat × Word} (hu : u ∈ visibleWrites s addr len) :
    u ∈ pendingWrites s := List.mem_of_mem_filter hu

/-- Everything a host move can do to the block, memory and configuration: nothing, a register write, a memory store, a
performed part of the running command, or a reset. -/
theorem hostStep_cases {s t : State} (h : hostStep s = .next t) :
    t.config = s.config ∧
      ((t.block = s.block ∧ t.mem = s.mem) ∨
        (∃ w r, t.block = writeReg s.block w r ∧ t.mem = s.mem) ∨
        (∃ a v, a + 4 ≤ s.config.memSize ∧ meetsRunningRegion s.block a 4 = false ∧ t.block = s.block ∧
          t.mem = Memory.writeWord s.mem a v) ∨
        (∃ a v, a + 1 ≤ s.config.memSize ∧ meetsRunningRegion s.block a 1 = false ∧ t.block = s.block ∧
          t.mem = Memory.writeByte s.mem a v) ∨
        (∃ ws, ws ⊆ pendingWrites s ∧ t.block = s.block ∧ t.mem = (performSome s ws).mem) ∨
        (t.block = Block.reset ∧ t.mem = (performSome s (pendingWrites s)).mem)) := by
  have pending : ∀ rest, pendingWrites { s with host := rest } = pendingWrites s := fun _ => rfl
  unfold hostStep at h
  split at h
  case h_1 => cases h; exact ⟨rfl, .inl ⟨rfl, rfl⟩⟩
  case h_2 =>
    obtain ⟨off, -, rfl⟩ := hostRegWrite_cases h
    unfold busWrite
    split_ifs
    · exact ⟨rfl, .inr (.inr (.inr (.inr (.inr ⟨rfl, rfl⟩))))⟩
    · exact ⟨rfl, .inr (.inl ⟨_, _, rfl, rfl⟩)⟩
  case h_3 =>
    obtain ⟨w, rfl⟩ := hostRegRead_cases h
    exact ⟨rfl, .inl ⟨rfl, rfl⟩⟩
  case h_4 =>
    obtain ⟨h1, h2, rfl⟩ := hostStore_cases h
    exact ⟨rfl, .inr (.inr (.inl ⟨_, _, h1, h2, rfl, rfl⟩))⟩
  case h_5 =>
    obtain ⟨-, rfl⟩ := hostLoad_cases h
    exact ⟨rfl, .inr (.inr (.inr (.inr (.inl ⟨_, fun u hu => visibleWrites_subset hu, rfl, rfl⟩))))⟩
  case h_6 =>
    obtain ⟨h1, h2, rfl⟩ := hostStore_cases h
    exact ⟨rfl, .inr (.inr (.inr (.inl ⟨_, _, h1, h2, rfl, rfl⟩)))⟩
  case h_7 =>
    obtain ⟨-, rfl⟩ := hostLoad_cases h
    exact ⟨rfl, .inr (.inr (.inr (.inr (.inl ⟨_, fun u hu => visibleWrites_subset hu, rfl, rfl⟩))))⟩
  case h_8 => cases h; split <;> exact ⟨rfl, .inl ⟨rfl, rfl⟩⟩
  case h_9 => cases h; split <;> exact ⟨rfl, .inl ⟨rfl, rfl⟩⟩
  case h_10 => cases h; exact ⟨rfl, .inr (.inr (.inr (.inr (.inr ⟨rfl, rfl⟩))))⟩

end Sys2Proof.Machine
end

