-- ==== Sys2Proof/Machine/Catalog.lean ====
section
/-! DEFINITION. The filter catalog as host programs (45_catalog.md R210 to R223): data of the host, not of the block. -/

namespace Sys2Proof.Machine

/-- A sub-effect of a catalog entry's composition (R210, R110). -/
inductive SubEffect where
  | saturation (s : Decimal)
  | scaleOffset (scale extra : Decimal)
  | tint (v : Vector Decimal 20)
  deriving DecidableEq, Repr

/-- The matrix entries of the catalog (R212 to R221). -/
inductive MatrixFilter where
  | grayscale
  | sepia
  | cool
  | dramatic
  | dreamy
  | pastel
  | vintage
  | cleanSkin
  | retro
  | sunset
  deriving DecidableEq, Repr

/-- A tint with the fixed alpha row, from its three colour rows in thousandths. -/
def colourTint (r g b : Vector Int 5) : Vector Decimal 20 :=
  #v[mills r[0], mills r[1], mills r[2], mills r[3], mills r[4],
     mills g[0], mills g[1], mills g[2], mills g[3], mills g[4],
     mills b[0], mills b[1], mills b[2], mills b[3], mills b[4],
     whole 0, whole 0, whole 0, whole 1, whole 0]

/-- The compositions, first sub-effect first (R212 to R221). -/
def composition : MatrixFilter → List SubEffect
  | .grayscale => [.saturation (whole 0)]
  | .sepia => [.tint (colourTint #v[393, 769, 189, 0, 0] #v[349, 686, 168, 0, 0] #v[272, 534, 131, 0, 0])]
  | .cool => [.tint (colourTint #v[940, 0, 0, 0, -6000] #v[0, 1000, 0, 0, 0] #v[0, 0, 1060, 0, 10000])]
  | .dramatic => [.saturation (cents 118), .scaleOffset (cents 125) (whole (-4))]
  | .dreamy => [.saturation (cents 85), .scaleOffset (cents 85) (whole 20)]
  | .pastel => [.saturation (cents 80), .scaleOffset (cents 95) (whole 10)]
  | .vintage =>
    [.saturation (cents 85),
      .tint (colourTint #v[1030, 0, 0, 0, 8000] #v[0, 1000, 0, 0, 2000] #v[0, 0, 970, 0, -2000]),
      .scaleOffset (cents 95) (whole 6)]
  | .cleanSkin =>
    [.saturation (cents 90), .scaleOffset (cents 92) (whole 12),
      .tint (colourTint #v[1030, 0, 0, 0, 5000] #v[0, 1020, 0, 0, 3000] #v[0, 0, 980, 0, -2000])]
  | .retro =>
    [.saturation (cents 60),
      .tint (colourTint #v[1200, 100, 0, 0, 15000] #v[50, 950, 50, 0, 5000] #v[0, 0, 800, 0, -5000]),
      .scaleOffset (cents 90) (whole 12)]
  | .sunset =>
    [.saturation (cents 115),
      .tint (colourTint #v[1250, 80, 0, 0, 20000] #v[50, 1050, 50, 0, 10000] #v[0, 0, 850, 0, -15000])]

/-- The host program of one sub-effect (R110). -/
def subEffectProgram (c : Config) : SubEffect → List HostOp
  | .saturation s => sat c s
  | .scaleOffset scale extra => scaleOff c scale extra
  | .tint v => tint c v

/-- The host program of a matrix entry on an image (R210). -/
def matrixFilterProgram (c : Config) (f : MatrixFilter) (src dst : Word) (w h : Nat) : List HostOp :=
  goWait c .mIdent ++ (composition f).flatMap (subEffectProgram c) ++ image c src dst w h ++ goWait c .matApply

/-- The operand matrix a sub-effect puts in N (R137, R138, R141). -/
def subEffectMatrix : SubEffect → ColorMatrix
  | .saturation s => storeMatrix (saturationMatrix (sext (qWord s)))
  | .scaleOffset scale extra => storeMatrix (scaleOffsetMatrix (sext (qWord scale)) (sext (qWord extra)))
  | .tint v => Vector.ofFn fun i => qWord v[i]

/-- The accumulator matrix a matrix entry builds: each sub-effect left-multiplied in order (R135, R210). -/
def filterMatrix (f : MatrixFilter) : ColorMatrix :=
  (composition f).foldl (fun m e => composeMatrix (subEffectMatrix e) m) ColorMatrix.identity

/-- The Emboss kernel (R222). -/
def embossKernel : Vector Decimal 9 := #v[whole (-2), whole (-1), whole 0, whole (-1), whole 1, whole 1, whole 0, whole 1, whole 2]

/-- The host program of Emboss (R222). -/
def embossProgram (c : Config) (src dst : Word) (w h : Nat) : List HostOp :=
  loadK c embossKernel ++ [wr c .convOffset (qWord (whole 128))] ++ image c src dst w h ++ goWait c .convApply

/-- The radius of the Blur entry unless the caller overrides it (R223). -/
def blurDefaultRadius : Int := 5

/-- The host program of Blur with `WR RADIUS` omitted, as it may be after reset, since RADIUS resets to 5 (R223). -/
def blurProgramAfterReset (c : Config) (src dst tmp : Word) (w h : Nat) : List HostOp :=
  image c src dst w h ++ [wr c .tmpBase tmp] ++ goWait c .blurApply

/-- The host program of Blur, with the caller's radius where there is one (R223). DESIGN CHOICE (log 22): a radius that
does not fit in 32 bits is written modulo 2^32. -/
def blurProgram (c : Config) (radius : Option Int) (src dst tmp : Word) (w h : Nat) : List HostOp :=
  wr c .radius (toWord (radius.getD blurDefaultRadius)) :: blurProgramAfterReset c src dst tmp w h

end Sys2Proof.Machine
end

