-- ==== Sys2Proof/Tests/Slice0.lean ====
section
/-! SUPPORT. The model's own tests: well-formedness smoke tests, decoding of words written out from 30_encoding.md R102,
the vectors of 95_test_vectors.md on small states, and a witness for the hypotheses of every statement that has any. -/

namespace Sys2Proof.Tests

open Sys2Proof.Machine

/-! ### Helpers -/

/-- The state an outcome goes on to; the reset state where it stops. -/
def after (o : Host.Outcome State Fault Refusal) : State :=
  match o with
  | .next t => t
  | .fault _ => State.reset
  | .refused _ => State.reset

/-- A property of the next state, false of a stop. -/
def goesTo (o : Host.Outcome State Fault Refusal) (p : State → Bool) : Bool :=
  match o with
  | .next t => p t
  | .fault _ => false
  | .refused _ => false

/-- The reset state with another block, the given words in memory and the given host moves. -/
def small (b : Block) (words : List (Nat × Word)) (host : List HostOp) : State :=
  { State.reset with block := b, mem := Memory.writeWords [] words, host := host }

/-- The block set up for a `w × h` image: SRC 0x1000, DST 0x2000, TMP 0x3000. -/
def imageBlock (w h : Word) : Block :=
  { Block.reset with
    srcBase := 0x1000, dstBase := 0x2000, tmpBase := 0x3000, width := w, height := h, srcLen := w * h, radius := 1 }

/-- That block, BUSY with a command word. -/
def busyBlock (cur : Word) (w h : Word) : Block := acceptStart { imageBlock w h with cmd := cur }

/-- The 20 coefficients as integers. -/
def ints (m : ColorMatrix) : List Int := (List.finRange 20).map fun t => sext m[t]

/-- A matrix from 20 integers. -/
def ofInts (v : Vector Int 20) : ColorMatrix := storeMatrix v

/-- The pixel word of (R, G, B, A). -/
def rgba (r g b a : Byte) : Word := pack { r := r, g := g, b := b, a := a }

/-- The `n` words from an address. -/
def wordsAt (s : State) (a n : Nat) : List Word := (List.range n).map fun i => Memory.readWord s.mem (a + 4 * i)

/-! ### Well-formedness: each check refuses an ill-formed term (R11, R100, R101) -/

theorem test_wf_accepts_legal : Word.wellFormed 0x00000005 = true ∧ Config.default.wellFormed = true := by decide

theorem test_wf_refuses_reserved_bits : Word.rsvdIsZero 0x00000015 = false ∧ Word.wellFormed 0x00000015 = false := by
  decide

theorem test_wf_refuses_reserved_op : Word.opIsAssigned 0x00000008 = false ∧ Word.wellFormed 0x00000008 = false := by
  decide

theorem test_wf_refuses_memory_sizes :
    Config.memSizeLegal { memSize := 3, regBase := 0 } = false ∧
      Config.memSizeLegal { memSize := 2 ^ 32 + 1, regBase := 0 } = false := by decide

theorem test_wf_refuses_unaligned_window : Config.regBaseAligned { memSize := 4, regBase := 0x40000004 } = false := by
  decide

/-! ### Decoding: RSVD then OP, bit by bit from R100 and R102 -/

theorem test_decode_nop : decode 0b00000000000000000000000000000000 = .ok .nop := by decide
theorem test_decode_mIdent : decode 0b00000000000000000000000000000001 = .ok .mIdent := by decide
theorem test_decode_nSat : decode 0b00000000000000000000000000000010 = .ok .nSat := by decide
theorem test_decode_nScaleOff : decode 0b00000000000000000000000000000011 = .ok .nScaleOff := by decide
theorem test_decode_mCompose : decode 0b00000000000000000000000000000100 = .ok .mCompose := by decide
theorem test_decode_matApply : decode 0b00000000000000000000000000000101 = .ok .matApply := by decide
theorem test_decode_convApply : decode 0b00000000000000000000000000000110 = .ok .convApply := by decide
theorem test_decode_blurApply : decode 0b00000000000000000000000000000111 = .ok .blurApply := by decide

/-- R101: reserved OP 0x8 and 0xF, and each end of the field RSVD. -/
theorem test_decode_reserved :
    decode 0x00000008 = .error .reservedOp ∧ decode 0x0000000F = .error .reservedOp ∧
      decode 0x00000010 = .error .reservedBits ∧ decode 0x80000005 = .error .reservedBits := by decide

/-- R74, R77: the first byte of the four is the least significant. -/
theorem test_decode_bytes :
    decodeBytes [0x06, 0, 0, 0, 0xAA] = some (.ok .convApply, [0xAA]) ∧
      decodeBytes [0, 0, 0, 0x06] = some (.error .reservedBits, []) ∧ decodeBytes [0x06, 0, 0] = none := by decide

theorem test_decodeTableWord :
    decodeTableWord 32 7 = some .blurApply ∧ decodeTableWord 32 8 = none ∧ decodeTableWord 32 0x15 = none := by decide

/-- The state `withFetchWord` makes runs its word at the very next step: M_IDENT and an unassigned word. -/
theorem test_withFetchWord :
    goesTo (step (State.reset.withFetchWord 32 1)) (fun t => statusWord t.block == 0x00000002) = true ∧
      goesTo (step (State.reset.withFetchWord 32 9)) (fun t => statusWord t.block == 0x00000304) = true := by
  decide +kernel

/-! ### Commands (95_test_vectors.md sections 1 to 7) -/

/-- LC-2: NOP with WIDTH = 0. -/
theorem test_nop_LC2 : goesTo (exec .nop State.reset) (fun t => statusWord t.block == 0x00000002) = true := by
  decide +kernel

/-- ID-1, with N kept. -/
theorem test_mIdent_ID1 :
    let s := small { Block.reset with m := ofInts (Vector.replicate 20 7), n := ofInts (Vector.replicate 20 9) } [] []
    goesTo (exec .mIdent s) (fun t =>
      ints t.block.m == [65536, 0, 0, 0, 0, 0, 65536, 0, 0, 0, 0, 0, 65536, 0, 0, 0, 0, 0, 65536, 0] &&
        ints t.block.n == List.replicate 20 9) = true := by
  decide +kernel

/-- SAT-3. -/
theorem test_nSat_SAT3 :
    goesTo (exec .nSat (small { Block.reset with param0 := 0x00012E14 } [] [])) (fun t => ints t.block.n ==
      [74819, -8434, -849, 0, 0, -2513, 68898, -849, 0, 0, -2513, -8434, 76483, 0, 0, 0, 0, 0, 65536, 0]) = true := by
  decide +kernel

/-- SAT-10. -/
theorem test_nSat_SAT10 :
    goesTo (exec .nSat (small { Block.reset with param0 := 0x80000000 } [] [])) (fun t => ints t.block.n ==
      [-1690061177, 1535489802, 154636911, 0, 0, 457422471, -611993846, 154636911, 0, 0,
        457422471, 1535489802, -1992846737, 0, 0, 0, 0, 0, 65536, 0]) = true := by
  decide +kernel

/-- SO-4. -/
theorem test_nScaleOff_SO4 :
    goesTo (exec .nScaleOff (small { Block.reset with param0 := 0x00014000, param1 := 0xFFFC0000 } [] []))
      (fun t => ints t.block.n == [81920, 0, 0, 0, -2351104, 0, 81920, 0, 0, -2351104, 0, 0, 81920, 0, -2351104,
        0, 0, 0, 65536, 0]) = true := by
  decide +kernel

/-- SO-3 and SO-8: the tie and the saturation. -/
theorem test_nScaleOff_SO3_SO8 :
    goesTo (exec .nScaleOff (small { Block.reset with param0 := 0x00000001 } [] []))
        (fun t => coeff t.block.n 0 4 == 8355713) = true ∧
      goesTo (exec .nScaleOff (small { Block.reset with param0 := 0x80000000 } [] []))
        (fun t => coeff t.block.n 2 4 == 2147483647 && coeff t.block.n 2 2 == -2147483648) = true := by
  decide +kernel

/-- MC-4: the offset column. -/
theorem test_mCompose_MC4 :
    let s := small { Block.reset with
      n := ofInts #v[65536, 0, 0, 0, 655360, 0, 65536, 0, 0, 0, 0, 0, 65536, 0, 0, 0, 0, 0, 65536, 0]
      m := ofInts #v[131072, 0, 0, 0, 327680, 0, 65536, 0, 0, 0, 0, 0, 65536, 0, 0, 0, 0, 0, 65536, 0] } [] []
    goesTo (exec .mCompose s) (fun t => (ints t.block.m).take 5 == [131072, 0, 0, 0, 983040]) = true := by
  decide +kernel

/-- MA-7: `C·T` with T the Cool tint and C SO-4, which tells N · M from M · N. -/
theorem test_mCompose_MA7 :
    let s := small { Block.reset with
      n := ofInts #v[81920, 0, 0, 0, -2351104, 0, 81920, 0, 0, -2351104, 0, 0, 81920, 0, -2351104, 0, 0, 0, 65536, 0]
      m := Vector.ofFn fun i =>
        qWord (colourTint #v[940, 0, 0, 0, -6000] #v[0, 1000, 0, 0, 0] #v[0, 0, 1060, 0, 10000])[i] } [] []
    goesTo (exec .mCompose s) (fun t => ints t.block.m == [77005, 0, 0, 0, -2842624, 0, 81920, 0, 0, -2351104,
      0, 0, 86835, 0, -1531904, 0, 0, 0, 65536, 0]) = true := by
  decide +kernel

/-- SRC-1: Sepia on one pixel. -/
theorem test_matApply_SRC1 :
    let s := small { imageBlock 1 1 with
      m := ofInts #v[25756, 50397, 12386, 0, 0, 22872, 44958, 11010, 0, 0, 17826, 34996, 8585, 0, 0, 0, 0, 0, 65536, 0] }
      [(0x1000, rgba 200 150 100 255)] []
    goesTo (exec .matApply s) (fun t => Memory.readWord t.mem 0x2000 == rgba 213 190 148 255) = true := by
  decide +kernel

/-- MX-9: alpha from R, so row 3 and column 0. -/
theorem test_matApply_MX9 :
    let s := small { imageBlock 1 1 with
      m := ofInts #v[65536, 0, 0, 0, 0, 0, 65536, 0, 0, 0, 0, 0, 65536, 0, 0, 65536, 0, 0, 0, 0] }
      [(0x1000, rgba 200 150 100 255)] []
    goesTo (exec .matApply s) (fun t => Memory.readWord t.mem 0x2000 == rgba 200 150 100 200) = true := by
  decide +kernel

/-- CV-5: only K[5], the right neighbour, clamped at the right edge. -/
theorem test_convApply_CV5 :
    let s := small { imageBlock 2 1 with k := #v[0, 0, 0, 0, 0, 0x00010000, 0, 0, 0] }
      [(0x1000, rgba 10 20 30 40), (0x1004, rgba 50 60 70 80)] []
    goesTo (exec .convApply s) (fun t => wordsAt t 0x2000 2 == [rgba 50 60 70 40, rgba 50 60 70 80]) = true := by
  decide +kernel

/-- CV-1, the worked pixel (1, 1) and the corner (0, 0) of Emboss on the 3 × 3 gradient. -/
theorem test_convApply_CV1 :
    let s := small { imageBlock 3 3 with
      k := #v[0xFFFE0000, 0xFFFF0000, 0, 0xFFFF0000, 0x00010000, 0x00010000, 0, 0x00010000, 0x00020000]
      convOffset := 0x00800000 }
      [(0x1000, 0x01006400), (0x1004, 0x02046402), (0x1008, 0x03086404), (0x100C, 0x04005F03), (0x1010, 0x05045F05),
        (0x1014, 0x06085F07), (0x1018, 0x07005A06), (0x101C, 0x08045A08), (0x1020, 0x09085A0A)] []
    goesTo (exec .convApply s) (fun t =>
      Memory.readWord t.mem 0x2000 == 0x018CD58F && Memory.readWord t.mem 0x2010 == 0x059CC1A3) = true := by
  decide +kernel

/-- BL-1. -/
theorem test_blurApply_BL1 :
    let s := small (imageBlock 3 1)
      [(0x1000, rgba 0 0 0 10), (0x1004, rgba 30 60 90 20), (0x1008, rgba 255 255 255 30)] []
    goesTo (exec .blurApply s) (fun t => wordsAt t 0x2000 3 == [0xFF0A141E, 0xFF5F6973, 0xFFB4BEC8] &&
      wordsAt t 0x3000 3 == [0xFF0A141E, 0xFF5F6973, 0xFFB4BEC8]) = true := by
  decide +kernel

/-- BL-5: the two truncations. -/
theorem test_blurApply_BL5 :
    let s := small (imageBlock 2 2) [(0x1008, rgba 1 1 1 0), (0x100C, rgba 2 2 2 0)] []
    goesTo (exec .blurApply s) (fun t => wordsAt t 0x3000 4 ==
        [rgba 0 0 0 255, rgba 0 0 0 255, rgba 1 1 1 255, rgba 1 1 1 255] &&
      wordsAt t 0x2000 4 == List.replicate 4 (rgba 0 0 0 255)) = true := by
  decide +kernel

/-! ### Errors, registers and reset (95_test_vectors.md sections 8 and 9) -/

/-- The base setup of section 8 with a change, its command word latched. -/
def errorRun (cur : Word) (change : Block → Block) : Word :=
  let b := change { imageBlock 2 1 with cmd := cur }
  statusWord (after (engineStep (small (acceptStart b) [] []))).block

/-- ER-4, ER-6, ER-9, ER-11: the checks of the dimensions and the source. -/
theorem test_errors_input :
    errorRun 9 (fun b => { b with width := 0 }) = 0x00000304 ∧
      errorRun 5 (fun b => { b with width := 0xFFFFFFFF }) = 0x00000104 ∧
      errorRun 5 (fun b => { b with width := 0x00010000, height := 0x00010000, srcLen := 0 }) = 0x00000104 ∧
      errorRun 5 (fun b => { b with srcBase := 0xFFFC }) = 0x00000104 := by decide +kernel

/-- ER-15, ER-18, ER-20, ER-22: the destination and the intermediate region, and the priority. -/
theorem test_errors_output :
    errorRun 5 (fun b => { b with dstBase := 0x1004 }) = 0x00000204 ∧
      errorRun 5 (fun b => { b with width := 0, dstBase := 0x2002 }) = 0x00000104 ∧
      errorRun 7 (fun b => { b with tmpBase := 0x2000 }) = 0x00000204 ∧
      errorRun 7 (fun b => { b with tmpBase := 0x0FFC }) = 0x00000204 := by decide +kernel

/-- ER-12, ER-16, ER-23: what just passes. -/
theorem test_errors_none :
    errorRun 5 (fun b => { b with srcBase := 0xFFF8 }) = 0x00000002 ∧
      errorRun 5 (fun b => { b with dstBase := 0x1008 }) = 0x00000002 ∧
      errorRun 6 (fun b => { b with tmpBase := 0x3002 }) = 0x00000002 := by decide +kernel

/-- ST-4 and ST-5. -/
theorem test_reserved_and_ctrl :
    readReg (after (hostStep (small Block.reset [] [.regWrite 0x4000003C 4 0xFFFFFFFF]))).block .reserved = 0 ∧
      readReg (after (hostStep (small Block.reset [] [.regWrite 0x40000008 4 2]))).block .ctrl = 2 := by decide +kernel

/-- ST-10 and ST-11. -/
theorem test_status_write :
    let b := { Block.reset with status := { done := false, err := true, wign := false, errCode := 3 } }
    statusWord (after (hostStep (small b [] [.regWrite 0x4000000C 4 2]))).block = 0x00000304 ∧
      statusWord (after (hostStep (small b [] [.regWrite 0x4000000C 4 4]))).block = 0 := by decide +kernel

/-- ST-12 and ST-13: ignored writes while BUSY. -/
theorem test_busy_writes :
    let s op := small (busyBlock 5 1 1) [] [op]
    statusWord (after (hostStep (s (.regWrite 0x40000040 4 0)))).block = 0x00000009 ∧
      ctrlWord (after (hostStep (s (.regWrite 0x40000008 4 3)))).block = 0x00000002 ∧
      statusWord (after (hostStep (s (.regWrite 0x40000008 4 3)))).block = 0x00000009 := by decide +kernel

/-- ST-14: a soft reset while BUSY, the START and IRQ_EN bits of the same word ignored. -/
theorem test_soft_reset :
    (after (hostStep (small (busyBlock 1 1 1) [] [.regWrite 0x40000008 4 7]))).block = Block.reset := by decide +kernel

/-- The byte order of R74: (200, 150, 100, 255) stored at 0x1000. -/
theorem test_byte_order :
    Memory.writeWord [] 0x1000 0xFFC89664 = [(0x1000, 0x64), (0x1001, 0x96), (0x1002, 0xC8), (0x1003, 0xFF)] ∧
      rgba 200 150 100 255 = 0xFFC89664 := by decide

/-- 45_catalog.md R215 and R213: the matrices of Dramatic and Sepia. -/
theorem test_catalog :
    ints (filterMatrix .dramatic) = [93524, -10543, -1061, 0, -2351104, -3141, 86123, -1061, 0, -2351104,
        -3141, -10543, 95604, 0, -2351104, 0, 0, 0, 65536, 0] ∧
      ints (filterMatrix .sepia) = [25756, 50397, 12386, 0, 0, 22872, 44958, 11010, 0, 0, 17826, 34996, 8585, 0, 0,
        0, 0, 0, 65536, 0] := by decide +kernel

/-- 45_catalog.md R223: the default radius 5, a caller's radius, and the form that omits `WR RADIUS`. -/
theorem test_blur_program :
    (blurProgram Config.default none 0x1000 0x2000 0x3000 4 3).head? = some (.regWrite 0x4000002C 4 0x00000005) ∧
      (blurProgram Config.default (some 1) 0x1000 0x2000 0x3000 4 3).head? =
        some (.regWrite 0x4000002C 4 0x00000001) ∧
      (blurProgramAfterReset Config.default 0x1000 0x2000 0x3000 4 3).head? =
        some (.regWrite 0x40000014 4 0x00001000) := by decide

/-! ### Witnesses: `test_meets_<Name>` meets the hypotheses of `Obligations.<Name>` together -/

/-- A `w × h` image command that is latched, with a one-colour source of one or two pixels, and host moves to come. -/
def running (cur : Word) (w : Word) (host : List HostOp) : State :=
  small (busyBlock cur w 1) [(0x1000, 0xFFC89664), (0x1004, 0xFFC89664)] host

theorem running_ready_zero : ImageReady (running 0 2 []) := by
  constructor <;> decide

theorem running_tmpReady_zero : TmpReady (running 0 2 []) := by
  constructor <;> decide

theorem running_ready (cur : Word) (host : List HostOp) : ImageReady (running cur 2 host) :=
  let r := running_ready_zero
  ⟨r.width, r.height, r.length, r.srcAligned, r.srcInside, r.dstAligned, r.dstInside, r.dstApart⟩

theorem running_tmpReady (cur : Word) (host : List HostOp) : TmpReady (running cur 2 host) :=
  let r := running_tmpReady_zero
  ⟨r.tmpAligned, r.tmpInside, r.srcApart, r.dstApart⟩

theorem running_command (cur : Word) (host : List HostOp) (i : Instr) : CommandReady i (running cur 2 host) := by
  cases i <;> first | trivial | exact ⟨running_ready cur host, fun _ => running_tmpReady cur host⟩

theorem running_uniform (cur : Word) (host : List HostOp) : UniformSource (running cur 2 host) .red 200 := by
  have key : ∀ x < 2, ∀ y < 1, channel .red (pixelOfImage (running 0 2 []) 0x1000 x y) = 200 := by decide +kernel
  rintro x y ⟨hx, hy⟩
  have hw : (running 0 2 []).block.width.toInt = 2 := by decide
  have hh : (running 0 2 []).block.height.toInt = 1 := by decide
  have hx : (x : Int) < (running 0 2 []).block.width.toInt := hx
  have hy : (y : Int) < (running 0 2 []).block.height.toInt := hy
  exact key x (by omega) y (by omega)

/-- R120: the engine's turn with no host move, with the schedule used up, and named by the schedule. -/
theorem running_engineTurn (cur : Word) : EngineTurn (running cur 2 []) ∧
    EngineTurn (running cur 2 [.wait]) ∧ EngineTurn { running cur 2 [.wait] with schedule := [.engine] } :=
  ⟨⟨rfl, .inl rfl⟩, ⟨rfl, .inl rfl⟩, ⟨rfl, .inr (.inr ⟨[], rfl⟩)⟩⟩

theorem test_meets_ResetEstablishesEveryRegisterValue :
    (running 5 2 [.rst]).host = .rst :: [] ∧ (running 5 2 [.rst]).block.engine = .busy 5 := ⟨rfl, rfl⟩

theorem test_meets_SoftResetActsAsReset :
    (0x00000007 : Word).getLsbD 2 = true ∧ (0x00000004 : Word).getLsbD 2 = true ∧
      (running 5 2 [.regWrite 0x40000008 4 0x00000007]).host =
        .regWrite ((running 5 2 []).config.regBase + 0x008) 4 0x00000007 :: [] := by decide

theorem test_meets_ResetWhileIdleKeepsMemory :
    (small (imageBlock 2 1) [(0x1000, 7)] [.rst]).block.engine = .idle ∧
      (small (imageBlock 2 1) [(0x1000, 7)] [.rst]).host = .rst :: [] := ⟨rfl, rfl⟩

theorem test_meets_DecodeUndoesEncode : Instr.blurApply.wellFormed = true := by decide

theorem test_meets_EngineTurnRunsTheLatchedCommand :
    (running 5 2 []).block.engine = .busy 5 ∧ decode 5 = .ok .matApply ∧ EngineTurn (running 5 2 []) :=
  ⟨rfl, by decide, (running_engineTurn 5).1⟩

/-- A witness for each of the three clauses. -/
theorem test_meets_HostTurnRunsTheFirstHostMove :
    (small (imageBlock 2 1) [] [.rst]).block.engine = .idle ∧
      (State.reset.block.engine = .idle ∧ State.reset.host = []) ∧
      let s := { running 5 2 [.wait] with schedule := [.host, .engine] }
      s.block.engine = .busy 5 ∧ s.host = .wait :: [] ∧ s.schedule = .host :: [.engine] :=
  ⟨rfl, ⟨rfl, rfl⟩, rfl, rfl, rfl⟩

/-- The first unassigned OP, the first word with RSVD ≠ 0, and the last word. -/
theorem test_meets_IllegalCommandFailsChangingOnlyStatus :
    EncodesNoCommand 0x00000008 ∧ EncodesNoCommand 0x00000010 ∧ EncodesNoCommand 0xFFFFFFFF ∧
      (running 8 2 []).block.engine = .busy 8 ∧ EngineTurn (running 8 2 []) :=
  ⟨.inr (by decide), .inl (by decide), .inl (by decide), rfl, (running_engineTurn 8).1⟩

/-- A START while IDLE, with WIGN clear, and a START while BUSY. -/
theorem test_meets_StartIsAcceptedOnlyWhileIdle :
    let op := HostOp.regWrite 0x40000008 4 0x00000003
    (0x00000003 : Word).getLsbD 0 = true ∧ (0x00000003 : Word).getLsbD 2 = false ∧
      (small (imageBlock 2 1) [] [op]).host = .regWrite (State.reset.config.regBase + 0x008) 4 0x00000003 :: [] ∧
      (small (imageBlock 2 1) [] [op]).block.engine = .idle ∧
      (small (imageBlock 2 1) [] [op]).block.status.wign = false ∧ (running 5 2 [op]).block.engine = .busy 5 := by
  decide

/-- Every code of the checks: 0, 1, 2 and 3. -/
theorem test_meets_FirstFailingCheckGivesTheCode :
    (running 5 2 []).block.engine = .busy 5 ∧ EngineTurn (running 5 2 []) ∧
      specCode 5 Config.default (imageBlock 2 1) = 0 ∧ specCode 5 Config.default (imageBlock 0 1) = 1 ∧
      specCode 5 Config.default { imageBlock 2 1 with dstBase := 0x1004 } = 2 ∧
      specCode 7 Config.default { imageBlock 2 1 with tmpBase := 0xFFFC } = 2 ∧
      specCode 8 Config.default (imageBlock 2 1) = 3 :=
  ⟨rfl, (running_engineTurn 5).1, by decide, by decide, by decide, by decide, by decide⟩

/-- Two states that agree on M, N, PARAM0 and PARAM1 and on nothing else. -/
theorem test_meets_AlgebraCommandsAlwaysSucceed :
    Instr.mCompose ∈ [Instr.nop, .mIdent, .nSat, .nScaleOff, .mCompose] ∧
      (running 5 2 []).block.m = State.reset.block.m ∧ (running 5 2 []).block.n = State.reset.block.n ∧
      (running 5 2 []).block.param0 = State.reset.block.param0 ∧
      (running 5 2 []).block.param1 = State.reset.block.param1 ∧ (running 5 2 []).block ≠ State.reset.block := by
  decide

theorem test_meets_NSatCornerCases :
    State.reset.block.param0 = 0x00010000 ∧
      (small { Block.reset with param0 := 0 } [] []).block.param0 = 0x00000000 := by decide

theorem test_meets_ComposingWithTheIdentity :
    IsIdentity State.reset.block.n ∧ IsIdentity State.reset.block.m := by unfold IsIdentity; decide

theorem test_meets_AlgebraKeepsTheAlphaRow :
    AlphaRowFixed (filterMatrix .sepia) ∧ AlphaRowFixed (subEffectMatrix (.saturation (cents 118))) := by
  unfold AlphaRowFixed; decide +kernel

/-- SAT-3 and SO-4 (MA-6). -/
theorem test_meets_SaturationAndContrastCommute :
    let S := storeMatrix (saturationMatrix 0x00012E14)
    let C := storeMatrix (scaleOffsetMatrix 81920 (-262144))
    AlphaRowFixed S ∧ AlphaRowFixed C ∧
      (∀ i : Fin 4, i ≠ 3 → coeff S i 3 = 0 ∧ coeff S i 4 = 0 ∧ coeff S i 0 + coeff S i 1 + coeff S i 2 = 65536) ∧
      ∀ i : Fin 4, i ≠ 3 → ∀ j : Fin 5, coeff C i j =
        if j = 4 then (0xFFDC2000 : Word).toInt else if i.val = j.val then (0x00014000 : Word).toInt else 0 := by
  unfold AlphaRowFixed; decide +kernel

/-- A positive divisor, and a tie of either sign. -/
theorem test_meets_RoundingIsNearestTiesAway :
    0 < 2 ∧ 2 * |(3 : Int) - (2 : Nat) * rha 3 2| = (2 : Nat) ∧
      2 * |(-3 : Int) - (2 : Nat) * rha (-3) 2| = (2 : Nat) := by decide

theorem test_meets_ClampThenRoundIsRoundThenClamp : 0 < 65536 := by decide

/-- The largest channel values. -/
theorem test_meets_AccumulatorsFitTheirWidths :
    (∀ dx dy : Int, (fun _ _ => 255 : Int → Int → Nat) dx dy ≤ 255) ∧ ∀ d : Int, (fun _ => 255 : Int → Nat) d ≤ 255 :=
  ⟨fun _ _ => le_refl _, fun _ => le_refl _⟩

theorem test_meets_MatApplyTransformsEveryPixel :
    ImageReady (running 5 2 []) ∧ InImage (running 5 2 []).block 0 0 ∧ InImage (running 5 2 []).block 1 0 :=
  ⟨running_ready 5 [], by unfold InImage; decide, by unfold InImage; decide⟩

theorem test_meets_MatApplyWithIdentityCopies :
    ImageReady (running 5 2 []) ∧ IsIdentity (running 5 2 []).block.m ∧ InImage (running 5 2 []).block 1 0 :=
  ⟨running_ready 5 [], by unfold IsIdentity; decide, by unfold InImage; decide⟩

theorem test_meets_MatApplyKeepsAlpha :
    ImageReady (running 5 2 []) ∧ AlphaRowFixed (running 5 2 []).block.m ∧ InImage (running 5 2 []).block 1 0 :=
  ⟨running_ready 5 [], by unfold AlphaRowFixed; decide, by unfold InImage; decide⟩

theorem test_meets_GrayscaleMakesChannelsEqual :
    let s := { running 5 2 [] with block := { (running 5 2 []).block with param0 := 0 } }
    ImageReady s ∧ s.block.param0 = 0 ∧ InImage s.block 1 0 := by
  refine ⟨?_, rfl, by unfold InImage; decide⟩
  constructor <;> decide

theorem test_meets_ConvApplyCorrelatesEveryPixel :
    ImageReady (running 6 2 []) ∧ InImage (running 6 2 []).block 0 0 :=
  ⟨running_ready 6 [], by unfold InImage; decide⟩

/-- Both forms of the hypothesis, at the right edge. -/
theorem test_meets_ConvApplyOnUniformImage : ImageReady (running 6 2 []) ∧ UniformSource (running 6 2 []) .red 200 ∧
    InImage (running 6 2 []).block 1 0 ∧ ∀ dx dy : Fin 3, channel .red (pixelOfImage (running 6 2 []) 0x1000
      (edgeClamp ((1 : Nat) + dx.val - 1) 2) (edgeClamp ((0 : Nat) + dy.val - 1) 1)) = 200 :=
  ⟨running_ready 6 [], running_uniform 6 [], by unfold InImage; decide, by decide +kernel⟩

theorem test_meets_BlurApplyAveragesInTwoPasses :
    ImageReady (running 7 2 []) ∧ TmpReady (running 7 2 []) ∧ InImage (running 7 2 []).block 1 0 :=
  ⟨running_ready 7 [], running_tmpReady 7 [], by unfold InImage; decide⟩

theorem test_meets_BlurKeepsUniformColour : ImageReady (running 7 2 []) ∧ TmpReady (running 7 2 []) ∧
    UniformSource (running 7 2 []) .red 200 ∧ InImage (running 7 2 []).block 1 0 :=
  ⟨running_ready 7 [], running_tmpReady 7 [], running_uniform 7 [], by unfold InImage; decide⟩

/-- 0, the most negative word, 11 and the most positive word. -/
theorem test_meets_BlurRadiusIsClamped :
    (0x00000000 : Word).toInt ≤ 0 ∧ (0x80000000 : Word).toInt ≤ 0 ∧ 10 < (0x0000000B : Word).toInt ∧
      10 < (0x7FFFFFFF : Word).toInt := by decide

/-- The first and the last byte of SRC, and the bytes just outside it. -/
theorem test_meets_CommandsWriteOnlyTheirOutput :
    InRegion (running 5 2 []).block 0x1000 0x1000 ∧ InRegion (running 5 2 []).block 0x1000 0x1007 ∧
      ¬ InRegion (running 5 2 []).block 0x1000 0x1008 ∧ ¬ InOutput .matApply (running 5 2 []).block 0x0FFF ∧
      ¬ InOutput .matApply (running 5 2 []).block 0x3000 := by
  simp only [InOutput, imageUsesTmp, InRegion]; decide

/-- A state that differs in a byte of DST, a byte outside every region, MEM_SIZE and the host moves. -/
theorem test_meets_OutputDependsOnRegistersAndSource :
    let s := running 7 2 []
    let s' := { s with
      mem := Memory.writeByte (Memory.writeByte s.mem 0x2000 9) 0x0100 9
      config := { memSize := 0x20000, regBase := 0 }
      host := [.wait] }
    s'.block = s.block ∧ CommandReady .blurApply s ∧ CommandReady .blurApply s' ∧
      (∀ a, InRegion s.block s.block.srcBase a → Memory.readByte s'.mem a = Memory.readByte s.mem a) ∧
      s'.mem ≠ s.mem ∧ InOutput .blurApply s.block 0x2000 ∧ InOutput .blurApply s.block 0x3007 := by
  refine ⟨rfl, running_command 7 [] _, ⟨?_, fun _ => ?_⟩, fun a ha => ?_, by decide +kernel, ?_, ?_⟩
  · constructor <;> decide
  · constructor <;> decide
  · have h1 : 0x1000 ≤ a := ha.1
    have e : imageLen (running 7 2 []).block = 8 := by decide
    have h2 : (a : Int) < (0x1000 : Nat) + imageLen (running 7 2 []).block := ha.2
    rw [e] at h2
    rw [readByte_writeByte, readByte_writeByte, if_neg (by omega), if_neg (by omega)]
  · simp only [InOutput, imageUsesTmp, InRegion]; decide
  · simp only [InOutput, imageUsesTmp, InRegion]; decide

/-- The first and the last RW register. -/
theorem test_meets_RegistersReadBackWhatIsWritten :
    (small (imageBlock 2 1) [] []).block.engine = .idle ∧ isReadWrite .cmd = true ∧ isReadWrite (.k 8) = true ∧
      (small (imageBlock 2 1) [] [.regWrite 0x40000100 4 7]).host =
        .regWrite (State.reset.config.regBase + regOffset (.k 8)) 4 7 :: [] := by decide

theorem test_meets_WindowOffsetsNameTheRegisters : 0x104 ≤ 0x104 ∧ 0x104 ≤ 0xFFC := by decide

/-- Each clause: a RW register while BUSY, and the first and the last offsets that are read-only or reserved. -/
theorem test_meets_BusyWritesAreIgnored :
    ((running 5 2 []).block.engine = .busy 5 ∧ isReadWrite (.m 0) = true ∧
      (running 5 2 [.regWrite 0x40000040 4 7]).host =
        .regWrite ((running 5 2 []).config.regBase + regOffset (.m 0)) 4 7 :: []) ∧
      (∀ off ∈ [0x000, 0x004, 0x03C, 0x104, 0xFFC], off < 4096 ∧ off % 4 = 0 ∧
        regAt off ∈ [Reg.id, .version, .reserved]) ∧
      (running 5 2 [.regWrite 0x40000FFC 4 7]).host =
        .regWrite ((running 5 2 []).config.regBase + 0xFFC) 4 7 :: [] := by decide

theorem test_meets_OperandsStayConstantWhileBusy :
    (running 5 2 []).block.engine = .busy 5 ∧ ∃ t, hostStep (running 5 2 [.regWrite 0x40000040 4 7]) = .next t :=
  ⟨rfl, _, rfl⟩

theorem test_meets_StatusWriteClearsFlags :
    (running 5 2 [.regWrite 0x4000000C 4 0xE]).host =
      .regWrite ((running 5 2 []).config.regBase + 0x00C) 4 0xE :: [] := by decide

/-- Each clause: a CTRL write without START or SRST, and a STATUS write of both flags. -/
theorem test_meets_InterruptFollowsTheFlags :
    ((0x00000002 : Word).getLsbD 0 = false ∧ (0x00000002 : Word).getLsbD 2 = false ∧
      (small Block.reset [] [.regWrite 0x40000008 4 2]).host =
        .regWrite (State.reset.config.regBase + 0x008) 4 2 :: []) ∧
      (0x00000006 : Word).getLsbD 1 = true ∧ (0x00000006 : Word).getLsbD 2 = true ∧
      (small Block.reset [] [.regWrite 0x4000000C 4 6]).host =
        .regWrite (State.reset.config.regBase + 0x00C) 4 6 :: [] := by decide

/-- The first and the last word of the window. -/
theorem test_meets_RegisterReadsHaveNoSideEffects :
    0x000 < 4096 ∧ 0x000 % 4 = 0 ∧ 0xFFC < 4096 ∧ 0xFFC % 4 = 0 ∧
      (small Block.reset [] [.regRead 0x40000FFC 4]).host = .regRead (State.reset.config.regBase + 0xFFC) 4 :: [] := by
  decide

/-- A byte access, an unaligned word access and the last byte of the window. -/
theorem test_meets_NonWordRegisterAccessIsRefused :
    State.reset.config.wellFormed = true ∧ State.reset.config.regBase ≤ 0x40000000 ∧
      0x40000FFF < State.reset.config.regBase + 4096 ∧ (1 ≠ 4 ∨ 0x40000000 % 4 ≠ 0) ∧
      (4 ≠ 4 ∨ 0x40000FFF % 4 ≠ 0) ∧
      (small Block.reset [] [.regWrite 0x40000000 1 7]).host = .regWrite 0x40000000 1 7 :: [] ∧
      (small Block.reset [] [.regRead 0x40000FFF 4]).host = .regRead 0x40000FFF 4 :: [] := by decide

/-- Every clause at the edges of the word: its first and last byte and the bytes beside it. -/
theorem test_meets_WordsAreLittleEndian : 0 < 4 ∧ 3 < 4 ∧ (0x0FFF < 0x1000 ∨ 0x1000 + 4 ≤ 0x0FFF) ∧
    (0x1004 < 0x1000 ∨ 0x1000 + 4 ≤ 0x1004) := by decide

/-- A DST word and a TMP word of BLUR_APPLY. -/
theorem test_meets_ReadWhileBusyIsOldOrFinal :
    let s := running 7 2 [.memRead 0x2004]
    s.block.engine = .busy 7 ∧ decode 7 = .ok .blurApply ∧ CommandReady .blurApply s ∧
      InOutput .blurApply s.block 0x2004 ∧ InOutput .blurApply s.block 0x3000 ∧ 0x2004 % 4 = 0 ∧
      s.host = .memRead 0x2004 :: [] :=
  ⟨rfl, by decide, running_command 7 _ _, by simp only [InOutput, imageUsesTmp, InRegion]; decide,
    by simp only [InOutput, imageUsesTmp, InRegion]; decide, rfl, rfl⟩

/-- The identity on a pixel that DST already holds. -/
theorem test_meets_FinalValueIsNeverTakenBack :
    let s := { running 5 2 [.memRead 0x2000] with
      mem := Memory.writeWord (running 5 2 []).mem 0x2000 0xFFC89664 }
    ∃ t u, s.block.engine = .busy 5 ∧ decode 5 = .ok .matApply ∧ CommandReady .matApply s ∧
      InOutput .matApply s.block 0x2000 ∧ 0x2000 % 4 = 0 ∧ exec .matApply s = .next u ∧
      Memory.readWord s.mem 0x2000 = Memory.readWord u.mem 0x2000 ∧ hostStep s = .next t := by
  refine ⟨_, _, rfl, by decide, ⟨?_, fun h => (by cases h)⟩, by simp only [InOutput, imageUsesTmp, InRegion]; decide,
    rfl, rfl, by decide +kernel, rfl⟩
  constructor <;> decide

/-- Each clause: a command that passes its checks, one that fails them (WIDTH = 0), and a word that encodes none. -/
theorem test_meets_AbandonedWordsAreOldOrFinal :
    let s := running 7 2 [.rst]
    let s' := running 7 0 [.rst]
    let s'' := running 8 2 [.rst]
    (s.block.engine = .busy 7 ∧ decode 7 = .ok .blurApply ∧ CommandReady .blurApply s ∧ s.host = .rst :: [] ∧
      InOutput .blurApply s.block 0x3004) ∧
      (s'.block.engine = .busy 7 ∧ ¬ CommandReady .blurApply s' ∧ s'.host = .rst :: []) ∧
      s''.block.engine = .busy 8 ∧ EncodesNoCommand 8 ∧ s''.host = .rst :: [] :=
  ⟨⟨rfl, by decide, running_command 7 _ _, rfl, by simp only [InOutput, imageUsesTmp, InRegion]; decide⟩,
    ⟨rfl, fun h => absurd h.1.width (by decide), rfl⟩, rfl, .inr (by decide), rfl⟩

/-- Each clause at its edge: a word that meets the first byte of SRC, and the byte just below it. -/
theorem test_meets_WriteToRunningRegionIsRefused :
    let s := running 5 2 [.memWrite 0x0FFD 7]
    let s' := running 5 2 [.memWriteByte 0x0FFF 7]
    s.block.engine = .busy 5 ∧ decode 5 = .ok .matApply ∧ s'.block.engine = .busy 5 ∧
      Instr.matApply ∈ [Instr.matApply, .convApply, .blurApply] ∧ 0 < s.block.width.toInt ∧ 0 < s.block.height.toInt ∧
      0x0FFD + 4 ≤ s.config.memSize ∧ s.host = .memWrite 0x0FFD 7 :: [] ∧ s'.host = .memWriteByte 0x0FFF 7 :: [] ∧
      (∃ c, 0x0FFD ≤ c ∧ c < 0x0FFD + 4 ∧ (InRegion s.block s.block.srcBase c ∨ InOutput .matApply s.block c)) ∧
      ∀ c, 0x0FFF ≤ c → c < 0x0FFF + 1 → ¬ InRegion s'.block s'.block.srcBase c ∧ ¬ InOutput .matApply s'.block c := by
  refine ⟨rfl, by decide, rfl, by decide, by decide, by decide, by decide, rfl, rfl,
    ⟨0x1000, by decide, by decide, .inl (by unfold InRegion; decide)⟩, fun c _ h2 => ?_⟩
  have hs : (running 5 2 [.memWriteByte 0x0FFF 7]).block.srcBase.toNat = 0x1000 := by decide
  have hd : (running 5 2 [.memWriteByte 0x0FFF 7]).block.dstBase.toNat = 0x2000 := by decide
  refine ⟨fun h => ?_, fun h => ?_⟩
  · have := h.1
    omega
  · rcases h with h | ⟨h, _⟩
    · have := h.1
      omega
    · cases h

/-- Each clause at the end of memory. -/
theorem test_meets_AccessOutsideMemoryIsRefused :
    let s op := small Block.reset [] [op]
    State.reset.config.memSize < 0xFFFD + 4 ∧ (s (.memWrite 0xFFFD 7)).host = .memWrite 0xFFFD 7 :: [] ∧
      State.reset.config.memSize ≤ 0x10000 ∧ (s (.memReadByte 0x10000)).host = .memReadByte 0x10000 :: [] := by decide

/-- No image command runs: the last word and the last byte of memory while IDLE and while BUSY with NOP. -/
theorem unrestricted_without_image : ∀ s ∈ [small (imageBlock 2 1) [] [], running 0 2 []], ∀ a len : Nat,
    a + len ≤ 0x10000 → a + len ≤ s.config.memSize ∧ ∀ cur i, s.block.engine = .busy cur → decode cur = .ok i →
      i = .nop := by
  intro s hs a len h
  simp only [List.mem_cons, List.not_mem_nil, or_false] at hs
  rcases hs with rfl | rfl
  · refine ⟨h, fun cur i hb _ => ?_⟩
    cases hb
  · refine ⟨h, fun cur i hb hd => ?_⟩
    injection hb with hb
    subst hb
    injection hd with hd
    exact hd.symm

/-- The hypotheses of every clause, while BUSY with NOP, at the last word and the last byte of memory. -/
theorem test_meets_UnrestrictedHostAccessesArePerformed :
    let s := running 0 2 []
    (∀ a len : Nat, a + len ≤ 0x10000 → (a + len ≤ s.config.memSize ∧ ∀ cur i, s.block.engine = .busy cur →
      decode cur = .ok i → i ∈ [Instr.matApply, .convApply, .blurApply] → 0 < s.block.width.toInt →
      0 < s.block.height.toInt → ∀ c, a ≤ c → c < a + len →
        ¬ InRegion s.block s.block.srcBase c ∧ ¬ InOutput i s.block c) ∧
      (a + len ≤ s.config.memSize ∧ ∀ cur i, s.block.engine = .busy cur → decode cur = .ok i → CommandReady i s →
        ∀ c, a ≤ c → c < a + len → ¬ InOutput i s.block c)) ∧
      0xFFFC + 4 ≤ 0x10000 ∧ 0xFFFF + 1 ≤ 0x10000 ∧ s.block.engine = .busy 0 ∧
      (running 0 2 [.memWrite 0xFFFC 7]).host = .memWrite 0xFFFC 7 :: [] ∧
      (running 0 2 [.memReadByte 0xFFFF]).host = .memReadByte 0xFFFF :: [] := by
  refine ⟨fun a len h => ?_, by decide, by decide, rfl, rfl, rfl⟩
  obtain ⟨hm, hn⟩ := unrestricted_without_image (running 0 2 []) (by simp) a len h
  refine ⟨⟨hm, fun cur i hb hd hi => ?_⟩, hm, fun cur i hb hd _ c _ _ => ?_⟩ <;> obtain rfl := hn cur i hb hd
  · exact absurd hi (by decide)
  · exact id

/-- The same while IDLE, and beside the regions of a running image command. -/
theorem test_meets_UnrestrictedHostAccessesArePerformed_image :
    (small (imageBlock 2 1) [] [.memRead 0x2000]).block.engine = .idle ∧
      let s := running 5 2 [.memRead 0x1000]
      0x1000 + 4 ≤ s.config.memSize ∧ ∀ cur i, s.block.engine = .busy cur → decode cur = .ok i → CommandReady i s →
        ∀ c, 0x1000 ≤ c → c < 0x1000 + 4 → ¬ InOutput i s.block c := by
  refine ⟨rfl, by decide, fun cur i hb hd _ c _ h2 h => ?_⟩
  injection hb with hb
  subst hb
  injection hd with hd
  subst hd
  have hd : (running 5 2 []).block.dstBase.toNat = 0x2000 := by decide
  rcases h with h | ⟨h, _⟩
  · have h : (running 5 2 []).block.dstBase.toNat ≤ c := h.1
    omega
  · cases h

/-- The invariant holds of a running command and of the state after its completion. -/
theorem test_meets_EveryStepKeepsTheInvariant :
    (small (busyBlock 5 1 1) [] []).Inv ∧ ∃ t, step (small (busyBlock 5 1 1) [] []) = .next t := by
  refine ⟨?_, _, rfl⟩
  constructor
  case latched =>
    intro cur h
    injection h with h
    exact h.symm
  all_goals decide

theorem test_meets_StepsKeepTheOpenParameters : ∃ t, step State.reset = .next t := ⟨_, rfl⟩

theorem test_meets_AcceptedCommandsComplete : (running 5 2 [.wait]).block.engine = .busy 5 := rfl

/-- A register write, ignored, and a memory write outside the regions. -/
theorem test_meets_HostCannotDisturbTheRunningCommand :
    let s := running 7 2 [.regWrite 0x4000002C 4 7]
    let s' := running 7 2 [.memWrite 0x5000 7]
    s.block.engine = .busy 7 ∧ decode 7 = .ok .blurApply ∧ CommandReady .blurApply s ∧ CommandReady .blurApply s' ∧
      (∃ u, exec .blurApply s = .next u) ∧ (∃ t, hostStep s = .next t ∧ t.block ≠ Block.reset) ∧
      (∃ t, hostStep s' = .next t ∧ t.block ≠ Block.reset) ∧ InOutput .blurApply s.block 0x2000 := by
  refine ⟨rfl, by decide, running_command 7 _ _, running_command 7 _ _, exec_next _ _, ⟨_, rfl, ?_⟩, ⟨_, rfl, ?_⟩,
    by simp only [InOutput, imageUsesTmp, InRegion]; decide⟩
  · intro h
    cases congrArg Block.engine h
  · intro h
    cases congrArg Block.engine h

end Sys2Proof.Tests
end

/-! PROOFS. The statements of 00_scope.md: rounding (R15) and what the output of a command depends on (R3). -/

namespace Sys2Proof.Machine

/-! ### Rounding (R15) -/

/-- `rha` as the rule writes it, with integers throughout. -/
theorem rha_eq_sign_mul_ediv (p : Int) (q : Nat) :
    rha p q = (if p < 0 then -1 else 1) * ((2 * |p| + q) / (2 * q)) := by
  unfold rha
  push_cast
  split_ifs
  · rw [neg_one_mul]
  · rw [one_mul]

/-- `p / q` is rounded to within half, and a tie goes to the larger magnitude, for a non-negative numerator. -/
theorem rha_nearest_of_nonneg {p : Int} {q : Nat} (hp : 0 ≤ p) (hq : 0 < q) :
    2 * |p - q * rha p q| ≤ q ∧ (2 * |p - q * rha p q| = q → |p| < |q * rha p q|) := by
  obtain ⟨hlow, hhigh⟩ := rha_bounds hp hq
  have hnonneg : 0 ≤ (q : Int) * rha p q := mul_nonneg (by omega) (rha_nonneg hp)
  rw [mul_assoc] at hlow hhigh
  rw [abs_of_nonneg hp, abs_of_nonneg hnonneg]
  rcases abs_cases (p - q * rha p q) with ⟨habs, -⟩ | ⟨habs, -⟩ <;> rw [habs]
  · have hstrict : 2 * (p - q * rha p q) < q := by omega
    exact ⟨hstrict.le, fun htie => absurd htie hstrict.ne⟩
  · exact ⟨by omega, fun htie => by omega⟩

/-- The same for every numerator, since `rha` is odd. -/
theorem rha_nearest (p : Int) {q : Nat} (hq : 0 < q) :
    2 * |p - q * rha p q| ≤ q ∧ (2 * |p - q * rha p q| = q → |p| < |q * rha p q|) := by
  rcases le_total 0 p with hp | hp
  · exact rha_nearest_of_nonneg hp hq
  · have hmirror := rha_nearest_of_nonneg (neg_nonneg.mpr hp) hq
    rwa [rha_neg p q hq, mul_neg, ← neg_sub', abs_neg, abs_neg, abs_neg] at hmirror

/-- Settles O27: `rha_nearest` carries the bounds from non-negative numerators to all by oddness. -/
theorem roundingIsNearestTiesAway : Obligations.RoundingIsNearestTiesAway :=
  ⟨fun p _ hq => ⟨rha_eq_sign_mul_ediv p _, rha_nearest p hq⟩, by decide⟩

/-! ### What the output depends on (R3) -/

/-- The open parameters enter a command through its checks only: two platforms on which it is ready give the same
writes. -/
theorem commandWrites_config {i : Instr} {s : State} {c : Config} (h : CommandReady i s)
    (hc : CommandReady i { s with config := c }) : commandWrites i { s with config := c } = commandWrites i s := by
  have hcheck := commandCheck_eq_none.mpr h
  have hcheck' := commandCheck_eq_none.mpr hc
  cases i <;> simp only [commandCheck, imageUsesTmp] at hcheck hcheck' <;>
    simp only [commandWrites, hcheck, hcheck', if_true]

/-- Readiness depends on the block and the open parameters only. -/
theorem commandReady_congr {i : Instr} {s s' : State} (hb : s'.block = s.block) (hc : s'.config = s.config) :
    CommandReady i s' ↔ CommandReady i s := by
  simp only [← commandCheck_eq_none, commandCheck, hb, hc]

/-- The writes of a command that is ready in both states depend on the block and the bytes of SRC only. -/
theorem commandWrites_eq_of_ready {i : Instr} {s s' : State} (hb : s'.block = s.block) (h : CommandReady i s)
    (h' : CommandReady i s')
    (hsrc : ∀ a, InRegion s.block s.block.srcBase a → Memory.readByte s'.mem a = Memory.readByte s.mem a) :
    commandWrites i s' = commandWrites i s := by
  have hmid : CommandReady i { s' with config := s.config } :=
    (commandReady_congr (s' := { s' with config := s.config }) hb rfl).mpr h
  calc commandWrites i s' = commandWrites i { s' with config := s.config } := (commandWrites_config h' hmid).symm
    _ = commandWrites i s := commandWrites_congr hb rfl hsrc

/-- An output byte of a ready command is fixed by its writes, whatever memory they are performed on (R81). -/
theorem readByte_commandWrites {i : Instr} {s : State} (h : CommandReady i s) {a : Nat} (ha : InOutput i s.block a)
    (m m' : Memory) : Memory.readByte (Memory.writeWords m' (commandWrites i s)) a =
      Memory.readByte (Memory.writeWords m (commandWrites i s)) a := by
  obtain ⟨u, hu, hlow, hhigh⟩ := exists_commandWrite h ha
  have hword (n : Memory) : Memory.readWord (Memory.writeWords n (commandWrites i s)) u.1 = u.2 :=
    readWord_writeWords_mem (commandWrites_apart i s) hu
  exact readByte_eq_of_readWord_eq ((hword m').trans (hword m).symm) hlow hhigh

/-- Settles O41: both machines perform the same writes, and these cover the output regions. -/
theorem outputDependsOnRegistersAndSource : Obligations.OutputDependsOnRegistersAndSource := by
  intro i s s' hb h h' hsrc
  refine ⟨_, _, exec_ready h, exec_ready h', ?_, fun a ha => ?_⟩
  · simp only [doneWith, hb]
  · have hwrites := commandWrites_eq_of_ready hb h h' hsrc
    simp only [doneWith, hwrites]
    exact readByte_commandWrites h ha s.mem s'.mem

end Sys2Proof.Machine

/-! PROOFS. The statements of 10_state.md: the invariant every step keeps (R38, R71, R250), the register window (R33, R40)
and STATUS (R37). -/

namespace Sys2Proof.Machine

/-! ### The parts of the invariant -/

/-- What the invariant says of the flags alone (R38, R250). -/
structure Status.Consistent (f : Status) : Prop where
  oneOutcome : ¬ (f.done = true ∧ f.err = true)
  codeIffErr : f.errCode ≠ 0 ↔ f.err = true
  codeLegal : f.errCode ≤ 3

/-- What the invariant says of the block (R38, R40, R121, R250). -/
structure Block.Consistent (b : Block) : Prop where
  flags : b.status.Consistent
  busyClear : b.busy = true → b.status.done = false ∧ b.status.err = false
  latched : ∀ cur, b.engine = .busy cur → cur = b.cmd

/-- What the invariant says of memory: the canonical form, and every listed byte below MEM_SIZE (R71). -/
structure Memory.Sound (c : Config) (m : Memory) : Prop where
  canonical : Memory.wf m
  inside : Memory.below m c.memSize

/-- The invariant is what it says of the platform, of memory and of the block. -/
theorem State.inv_iff (s : State) :
    s.Inv ↔ s.config.wellFormed = true ∧ Memory.Sound s.config s.mem ∧ s.block.Consistent := by
  constructor
  · rintro ⟨platform, canonical, inside, oneOutcome, codeIffErr, codeLegal, busyClear, latched⟩
    exact ⟨platform, ⟨canonical, inside⟩, ⟨oneOutcome, codeIffErr, codeLegal⟩, busyClear, latched⟩
  · rintro ⟨platform, ⟨canonical, inside⟩, ⟨oneOutcome, codeIffErr, codeLegal⟩, busyClear, latched⟩
    exact ⟨platform, canonical, inside, oneOutcome, codeIffErr, codeLegal, busyClear, latched⟩

/-! ### The flags -/

/-- Flags with neither outcome and code 0 are consistent, whatever WIGN is: the flags after reset and after a START. -/
theorem Status.consistent_of_clear {f : Status} (hdone : f.done = false) (herr : f.err = false)
    (hcode : f.errCode = 0) : f.Consistent :=
  ⟨by simp [hdone], by simp [herr, hcode], by simp [hcode]⟩

/-- Bit 2 of a write to STATUS clears ERR and ERRCODE together (R37). -/
theorem clearStatus_of_bit_two {w : Word} (f : Status) (hbit : w.getLsbD 2 = true) :
    clearStatus w f =
      { done := f.done && !w.getLsbD 1, err := false, wign := f.wign && !w.getLsbD 3, errCode := 0 } := by
  simp only [clearStatus, hbit, Bool.not_true, Bool.and_false, if_true]

/-- Without that bit ERR and ERRCODE stay (R37). -/
theorem clearStatus_of_not_bit_two {w : Word} (f : Status) (hbit : w.getLsbD 2 = false) :
    clearStatus w f = { f with done := f.done && !w.getLsbD 1, wign := f.wign && !w.getLsbD 3 } := by
  simp only [clearStatus, hbit, Bool.not_false, Bool.and_true, Bool.false_eq_true, if_false]

/-- A write to STATUS keeps the flags consistent, since ERR and ERRCODE go by the same bit (R37). -/
theorem clearStatus_consistent (w : Word) {f : Status} (hf : f.Consistent) : (clearStatus w f).Consistent := by
  cases hbit : w.getLsbD 2 with
  | true =>
    rw [clearStatus_of_bit_two f hbit]
    exact ⟨by simp, by simp, by simp⟩
  | false =>
    rw [clearStatus_of_not_bit_two f hbit]
    exact ⟨fun h => hf.oneOutcome (h.imp_left Bool.and_elim_left), hf.codeIffErr, hf.codeLegal⟩

/-- Completion from clear flags sets exactly one outcome, with a code of R250 for a failure (R127). -/
theorem completedStatus_consistent (code : Option ErrorCode) {f : Status} (hf : f.Consistent) (hdone : f.done = false)
    (herr : f.err = false) : (completedStatus code f).Consistent := by
  cases code with
  | none => exact ⟨by simp [herr], hf.codeIffErr, hf.codeLegal⟩
  | some e =>
    have hcode : e.bits ≠ 0 ∧ e.bits ≤ 3 := by cases e <;> decide
    exact ⟨by simp [hdone], iff_of_true hcode.1 rfl, hcode.2⟩

/-! ### The block -/

theorem Block.reset_consistent : Block.reset.Consistent :=
  ⟨Status.consistent_of_clear rfl rfl rfl, fun h => (by cases h), fun _ h => (by cases h)⟩

/-- An accepted START leaves a consistent block, whatever the block was (R121). -/
theorem acceptStart_consistent (b : Block) : (acceptStart b).Consistent :=
  ⟨Status.consistent_of_clear rfl rfl rfl, fun _ => ⟨rfl, rfl⟩, fun _ h => (by cases h; rfl)⟩

/-- Setting WIGN keeps consistency, which does not speak of it (R40). -/
theorem ignoreWrite_consistent {b : Block} (hb : b.Consistent) : (ignoreWrite b).Consistent :=
  ⟨⟨hb.flags.oneOutcome, hb.flags.codeIffErr, hb.flags.codeLegal⟩, hb.busyClear, hb.latched⟩

/-- IRQ_EN is free. -/
theorem Block.Consistent.withIrqEn {b : Block} (hb : b.Consistent) (e : Bool) :
    Block.Consistent { b with irqEn := e } :=
  ⟨hb.flags, hb.busyClear, hb.latched⟩

/-- A register stored while IDLE leaves the flags, and there is no latched word for CMD to agree with. -/
theorem storeReg_consistent {b : Block} (w : Word) (r : Reg) (hb : b.Consistent) (hidle : b.engine = .idle) :
    (storeReg b w r).Consistent :=
  ⟨by simpa using hb.flags, by simpa using hb.busyClear, by simp [hidle]⟩

/-- A write to STATUS clears flags only (R37). -/
theorem clearFlags_consistent {b : Block} (w : Word) (hb : b.Consistent) :
    Block.Consistent { b with status := clearStatus w b.status } := by
  refine ⟨clearStatus_consistent w hb.flags, fun hbusy => ?_, hb.latched⟩
  obtain ⟨hdone, herr⟩ := hb.busyClear hbusy
  simp [clearStatus, hdone, herr]

theorem writeCtrl_consistent {b : Block} (w : Word) (hb : b.Consistent) : (writeCtrl b w).Consistent := by
  rcases writeCtrl_cases b w with h | ⟨_, h⟩ | ⟨_, _, h⟩ <;> rw [h]
  · exact hb.withIrqEn _
  · exact acceptStart_consistent _
  · exact ignoreWrite_consistent (hb.withIrqEn _)

theorem writeReg_consistent {b : Block} (w : Word) (r : Reg) (hb : b.Consistent) : (writeReg b w r).Consistent := by
  rcases writeReg_cases b w r with h | ⟨hidle, _, h⟩ | ⟨_, _, _, h⟩ | ⟨_, h⟩ | ⟨_, h⟩ <;> rw [h]
  · exact hb
  · exact storeReg_consistent w r hb hidle
  · exact ignoreWrite_consistent hb
  · exact writeCtrl_consistent w hb
  · exact clearFlags_consistent w hb

/-- A command changes no flag before it completes (R126, R127). -/
@[simp] theorem commandEffect_status (i : Instr) (b : Block) : (commandEffect i b).status = b.status := by
  cases i <;> simp only [commandEffect]

/-- Completion of a running command: its flags were clear, and an IDLE engine has no latched word (R127). -/
theorem complete_consistent (code : Option ErrorCode) {s : State} (hflags : s.block.status.Consistent)
    (hdone : s.block.status.done = false) (herr : s.block.status.err = false) :
    (complete code s).block.Consistent :=
  ⟨completedStatus_consistent code hflags hdone herr, by simp, by simp⟩

/-! ### Memory -/

/-- Word writes inside memory keep it sound (R71). -/
theorem Memory.Sound.writeWords {c : Config} {m : Memory} {ws : List (Nat × Word)} (hm : Memory.Sound c m)
    (hws : ∀ u ∈ ws, u.1 + 4 ≤ c.memSize) : Memory.Sound c (Memory.writeWords m ws) :=
  ⟨writeWords_wf ws hm.canonical, writeWords_below hm.inside hws⟩

/-- Performing some of the running command's writes keeps memory sound (R86, R283). -/
theorem performSome_sound {s : State} {ws : List (Nat × Word)} (hm : Memory.Sound s.config s.mem)
    (hws : ws ⊆ pendingWrites s) : Memory.Sound s.config (performSome s ws).mem :=
  hm.writeWords fun _ hu => pendingWrites_below (hws (performedNow_subset hu))

/-! ### Every step -/

/-- Taking a turn off the schedule concerns nothing the invariant speaks of. -/
theorem takeTurn_inv {s : State} (hs : s.Inv) : (takeTurn s).Inv := by
  simpa [State.inv_iff] using hs

/-- The engine's move keeps the invariant: a completion, with the command's writes inside memory. -/
theorem engineStep_inv {s t : State} (hs : s.Inv) (h : engineStep s = .next t) : t.Inv := by
  obtain ⟨platform, hmem, hblock⟩ := s.inv_iff.mp hs
  have hclear {cur : Word} (hbusy : s.block.engine = .busy cur) := hblock.busyClear (by simp [Block.busy, hbusy])
  rcases engineStep_cases s with ⟨_, e⟩ | ⟨cur, i, hbusy, _, e⟩ | ⟨cur, _, hbusy, _, e⟩
  · cases e.symm.trans h
    exact hs
  · cases (e.trans (exec_eq i s)).symm.trans h
    obtain ⟨hdone, herr⟩ := hclear hbusy
    exact (State.inv_iff _).mpr ⟨platform, hmem.writeWords fun _ hu => commandWrites_below hu,
      complete_consistent _ (by simpa using hblock.flags) (by simpa using hdone) (by simpa using herr)⟩
  · cases e.symm.trans h
    obtain ⟨hdone, herr⟩ := hclear hbusy
    exact (State.inv_iff _).mpr ⟨platform, hmem, complete_consistent _ hblock.flags hdone herr⟩

/-- Every move of the host keeps the invariant. -/
theorem hostStep_inv {s t : State} (hs : s.Inv) (h : hostStep s = .next t) : t.Inv := by
  obtain ⟨platform, hmem, hblock⟩ := s.inv_iff.mp hs
  obtain ⟨hconfig, hmove⟩ := hostStep_cases h
  rw [State.inv_iff, hconfig]
  refine ⟨platform, ?_⟩
  rcases hmove with ⟨hb, hm⟩ | ⟨w, r, hb, hm⟩ | ⟨a, v, hin, _, hb, hm⟩ | ⟨a, v, hin, _, hb, hm⟩ | ⟨ws, hws, hb, hm⟩ |
      ⟨hb, hm⟩ <;> rw [hb, hm]
  · exact ⟨hmem, hblock⟩
  · exact ⟨hmem, writeReg_consistent w r hblock⟩
  · exact ⟨⟨writeWord_wf a v hmem.canonical, writeWord_below v hmem.inside hin⟩, hblock⟩
  · exact ⟨⟨writeByte_wf a v hmem.canonical, writeByte_below v hmem.inside hin⟩, hblock⟩
  · exact ⟨performSome_sound hmem hws, hblock⟩
  · exact ⟨performSome_sound hmem (List.Subset.refl _), Block.reset_consistent⟩

/-- Settles O57: a step is the engine's move or the host's, and each keeps the invariant. -/
theorem everyStepKeepsTheInvariant : Obligations.EveryStepKeepsTheInvariant := by
  intro s t hs h
  rcases step_cases s with ⟨_, e⟩ | ⟨_, e⟩ <;> rw [e] at h
  · exact engineStep_inv (takeTurn_inv hs) h
  · exact hostStep_inv (takeTurn_inv hs) h

/-- Settles O2: the flags are clear, the engine is IDLE and no byte is listed. -/
theorem resetSatisfiesTheInvariant : Obligations.ResetSatisfiesTheInvariant :=
  (State.inv_iff _).mpr ⟨by decide, ⟨reset_mem_wf, fun _ h => (by cases h)⟩, Block.reset_consistent⟩

/-! ### The open parameters (R51) -/

/-- The engine's move keeps MEM_SIZE and REG_BASE. -/
theorem engineStep_config {s t : State} (h : engineStep s = .next t) : t.config = s.config := by
  obtain ⟨u, hu, _, hconfig⟩ := engineStep_next s
  cases hu.symm.trans h
  exact hconfig

/-- Settles O58: neither the engine's move nor the host's changes the configuration. -/
theorem stepsKeepTheOpenParameters : Obligations.StepsKeepTheOpenParameters := by
  intro s t h
  rcases step_cases s with ⟨_, e⟩ | ⟨_, e⟩ <;> rw [e] at h
  · exact (engineStep_config h).trans (takeTurn_config s)
  · exact (hostStep_cases h).1.trans (takeTurn_config s)

/-! ### Register writes by the host -/

/-- A write to the window, at any offset the bus admits, is `busWrite` (R33, R77). -/
theorem hostStep_regWrite {s : State} {rest : List HostOp} {off : Nat} {w : Word} (hlt : off < 4096)
    (haligned : off % 4 = 0) (hhost : s.host = .regWrite (s.config.regBase + off) 4 w :: rest) :
    hostStep s = .next (busWrite { s with host := rest } off w) := by
  have hmove : hostStep s = hostRegWrite { s with host := rest } (s.config.regBase + off) 4 w := by
    simp only [hostStep, hhost]
  exact hmove.trans (hostRegWrite_ok w hlt haligned)

/-- A write to any register but CTRL is no soft reset. -/
theorem busWrite_of_ne_ctrl {off : Nat} (s : State) (w : Word) (h : regAt off ≠ .ctrl) :
    busWrite s off w = { s with block := writeReg s.block w (regAt off) } := by
  simp [busWrite, h]

/-- While IDLE a write to a RW register stores it (R33). -/
theorem writeReg_idle {b : Block} {r : Reg} (w : Word) (hr : isReadWrite r = true) (hidle : b.engine = .idle) :
    writeReg b w r = storeReg b w r := by
  cases r <;> simp_all [writeReg, isReadWrite]

/-- While BUSY a write to a RW register is ignored (R40). -/
theorem writeReg_busy {b : Block} {r : Reg} {cur : Word} (w : Word) (hr : isReadWrite r = true)
    (hbusy : b.engine = .busy cur) : writeReg b w r = ignoreWrite b := by
  cases r <;> simp_all [writeReg, isReadWrite]

/-- A host's write to a RW register (R33, R40). -/
theorem hostStep_regWrite_readWrite {s : State} {rest : List HostOp} {r : Reg} {w : Word} (hr : isReadWrite r = true)
    (hhost : s.host = .regWrite (s.config.regBase + regOffset r) 4 w :: rest) :
    hostStep s = .next { s with host := rest, block := writeReg s.block w r } := by
  have hctrl : r ≠ .ctrl := fun h => (by simp [h, isReadWrite] at hr)
  rw [hostStep_regWrite (regOffset_lt r) (regOffset_aligned r) hhost, busWrite_of_ne_ctrl _ _ (by simpa using hctrl),
    regAt_regOffset]

/-- Settles O42: the write is `storeReg`, and a stored register reads back alone. -/
theorem registersReadBackWhatIsWritten : Obligations.RegistersReadBackWhatIsWritten := by
  intro s rest r w hidle hr hhost
  refine ⟨_, hostStep_regWrite_readWrite hr hhost, ?_⟩
  rw [writeReg_idle w hr hidle]
  exact ⟨readReg_storeReg_same _ w hr, fun r' hne => readReg_storeReg_other _ w hne,
    (storeReg_engine _ w r).trans hidle, rfl, rfl⟩

/-- A write to ID, VERSION or a reserved offset changes nothing (R33, R34). -/
theorem writeReg_readOnly {b : Block} {r : Reg} (w : Word) (hr : r ∈ [Reg.id, .version, .reserved]) :
    writeReg b w r = b := by
  simp only [List.mem_cons, List.not_mem_nil, or_false] at hr
  rcases hr with rfl | rfl | rfl <;> rfl

/-- Settles O44: while BUSY a RW register's write is `ignoreWrite`, and a read-only location's is nothing. -/
theorem busyWritesAreIgnored : Obligations.BusyWritesAreIgnored := by
  refine fun s rest w => ⟨fun cur r hbusy hr hhost => ?_, fun off hlt haligned hr hhost => ?_⟩
  · rw [hostStep_regWrite_readWrite hr hhost, writeReg_busy w hr hbusy]
    rfl
  · have hctrl : regAt off ≠ .ctrl := fun h => absurd (h ▸ hr) (by decide)
    rw [hostStep_regWrite hlt haligned hhost, busWrite_of_ne_ctrl _ w hctrl, writeReg_readOnly w hr]

/-- While BUSY a register write reaches IRQ_EN and the flags only (R40). -/
theorem writeReg_busy_operands {b : Block} {cur : Word} (w : Word) (r : Reg) (hbusy : b.engine = .busy cur) :
    writeReg b w r = { b with irqEn := (writeReg b w r).irqEn, status := (writeReg b w r).status } := by
  rcases writeReg_cases b w r with h | ⟨hidle, _⟩ | ⟨_, _, _, h⟩ | ⟨_, h⟩ | ⟨_, h⟩
  · rw [h]
  · cases hbusy.symm.trans hidle
  · rw [h]; rfl
  · rw [h]
    rcases writeCtrl_cases b w with h | ⟨hidle, _⟩ | ⟨_, _, h⟩
    · rw [h]
    · cases hbusy.symm.trans hidle
    · rw [h]; rfl
  · rw [h]

/-- Settles O45: a register write is the only move short of a reset that reaches the block. -/
theorem operandsStayConstantWhileBusy : Obligations.OperandsStayConstantWhileBusy := by
  intro s t cur hbusy h
  have unchanged (hb : t.block = s.block) :
      t.block = { s.block with irqEn := t.block.irqEn, status := t.block.status } := by rw [hb]
  rcases (hostStep_cases h).2 with ⟨hb, _⟩ | ⟨w, r, hb, _⟩ | ⟨_, _, _, _, hb, _⟩ | ⟨_, _, _, _, hb, _⟩ | ⟨_, _, hb, _⟩ |
      ⟨hb, _⟩
  · exact .inr (unchanged hb)
  · exact .inr (hb ▸ writeReg_busy_operands w r hbusy)
  · exact .inr (unchanged hb)
  · exact .inr (unchanged hb)
  · exact .inr (unchanged hb)
  · exact .inl hb

/-! ### STATUS (R37) -/

/-- Concatenation as arithmetic: the upper part counts from the lower part's width. -/
theorem toNat_append_eq_add {m n : Nat} (x : BitVec m) (y : BitVec n) :
    (x ++ y).toNat = 2 ^ n * x.toNat + y.toNat := by
  rw [BitVec.toNat_append, Nat.shiftLeft_eq, Nat.mul_comm, Nat.two_pow_add_eq_or_of_lt y.isLt]

/-- The fields of STATUS at their places. -/
theorem statusWord_toNat (b : Block) : (statusWord b).toNat = b.busy.toNat + 2 * b.status.done.toNat +
    4 * b.status.err.toNat + 8 * b.status.wign.toNat + 256 * b.status.errCode.toNat := by
  simp only [statusWord, flagBit, toNat_append_eq_add, BitVec.toNat_ofBool, BitVec.ofNat_eq_ofNat,
    BitVec.toNat_ofNat]
  omega

/-- Settles O46: the fields of `statusWord`, and a write that is `clearStatus`. -/
theorem statusWriteClearsFlags : Obligations.StatusWriteClearsFlags := by
  refine ⟨statusWord_toNat, fun s rest w hhost => ?_⟩
  rw [hostStep_regWrite (by decide) (by decide) hhost, busWrite_of_ne_ctrl _ w (by decide)]
  rfl

/-! ### The map of the window (R33) -/

/-- Every offset after K is reserved. -/
theorem regAt_after_kernel {off : Nat} (h : 0x104 ≤ off) : regAt off = .reserved := by
  unfold regAt
  iterate 16 rw [if_neg (by omega)]
  iterate 3 rw [dif_neg (by omega)]

/-- Settles O43: `regAt` inverts `regOffset`, and the table ends with K. -/
theorem windowOffsetsNameTheRegisters : Obligations.WindowOffsetsNameTheRegisters :=
  ⟨by decide, fun i => ⟨regAt_regOffset (.m i), regAt_regOffset (.n i)⟩, fun i => regAt_regOffset (.k i),
    fun _ h => regAt_after_kernel h, fun _ => rfl⟩

end Sys2Proof.Machine

/-! PROOFS. The statements of 20_memory.md: the pixel word (R73), little-endian words (R74), register accesses (R77,
R79), what a command writes (R80, R81), and host accesses to memory while a command runs (R86, R87). -/

namespace Sys2Proof.Machine

/-! ### Fields of a word (R73, R74) -/

/-- Bytes put together are a word, each counting from its place. -/
theorem readWord_toNat (m : Memory) (a : Nat) : (Memory.readWord m a).toNat =
    (Memory.readByte m a).toNat + 2 ^ 8 * (Memory.readByte m (a + 1)).toNat +
      2 ^ 16 * (Memory.readByte m (a + 2)).toNat + 2 ^ 24 * (Memory.readByte m (a + 3)).toNat := by
  simp only [Memory.readWord, toNat_append_eq_add]
  omega

/-- Eight bits of a word as arithmetic on it. -/
theorem byteField_toNat (w : Word) (k : Nat) : (w.extractLsb' k 8).toNat = w.toNat / 2 ^ k % 256 := by
  rw [BitVec.extractLsb'_toNat, Nat.shiftRight_eq_div_pow]

/-- A byte of a word in memory is the word's bits from that place on. -/
theorem readByte_toNat_of_readWord (m : Memory) (a : Nat) {k : Nat} (hk : k < 4) :
    (Memory.readByte m (a + k)).toNat = (Memory.readWord m a).toNat / 2 ^ (8 * k) % 256 := by
  rw [← readWord_byte m a k hk, byteField_toNat]

/-- Settles O50: a word read is its four bytes, and these are the word just stored. -/
theorem wordsAreLittleEndian : Obligations.WordsAreLittleEndian := by
  intro m a w
  refine ⟨readWord_writeWord_same m a w, fun k hk => ?_, fun c hc => readByte_writeWord_outside hc, readWord_toNat m a⟩
  rw [readByte_toNat_of_readWord _ a hk, readWord_writeWord_same]

/-- The channels of a pixel word at their places (R73). -/
theorem px_toNat (w : Word) : (px w).a.toNat = w.toNat / 2 ^ 24 ∧ (px w).r.toNat = w.toNat / 2 ^ 16 % 256 ∧
    (px w).g.toNat = w.toNat / 2 ^ 8 % 256 ∧ (px w).b.toNat = w.toNat % 256 := by
  have htop : w.toNat / 2 ^ 24 < 256 := by have := w.isLt; omega
  have hlowest : w.toNat / 2 ^ 0 = w.toNat := Nat.div_one _
  exact ⟨(byteField_toNat w 24).trans (Nat.mod_eq_of_lt htop), byteField_toNat w 16, byteField_toNat w 8,
    hlowest ▸ byteField_toNat w 0⟩

/-- Settles O29: packing and unpacking are inverse, and the fields are those of `px_toNat`. -/
theorem pixelWordIsARGB : Obligations.PixelWordIsARGB :=
  ⟨px_pack, fun w => ⟨pack_px w, px_toNat w⟩⟩

/-! ### Register accesses (R77, R79) -/

/-- Settles O48: the read is admitted, and only the record of reads grows. -/
theorem registerReadsHaveNoSideEffects : Obligations.RegisterReadsHaveNoSideEffects := by
  intro s rest off hlt haligned hhost
  have hmove : hostStep s = hostRegRead { s with host := rest } (s.config.regBase + off) 4 := by
    simp only [hostStep, hhost]
  exact hmove.trans (hostRegRead_ok hlt haligned)

/-- Inside an aligned window an access of another width or alignment is not admitted (R77). -/
theorem windowOffset_nonWord {c : Config} {addr bytes : Nat} (hbase : c.regBase % 4096 = 0) (hlow : c.regBase ≤ addr)
    (hhigh : addr < c.regBase + 4096) (hbad : bytes ≠ 4 ∨ addr % 4 ≠ 0) :
    windowOffset c addr bytes = .error .nonWordRegisterAccess := by
  unfold windowOffset
  rw [if_neg (by omega), if_pos (by omega)]

/-- Settles O49: neither a store nor a load is admitted by the window. -/
theorem nonWordRegisterAccessIsRefused : Obligations.NonWordRegisterAccessIsRefused := by
  intro s rest addr bytes w hconfig hlow hhigh hbad
  have hbase : s.config.regBase % 4096 = 0 := by
    simpa [Config.regBaseAligned] using (Bool.and_eq_true_iff.mp hconfig).2
  have hwindow := windowOffset_nonWord hbase hlow hhigh hbad
  constructor <;> intro hhost
  · simp only [hostStep, hhost, hostRegWrite, hwindow]
  · simp only [hostStep, hhost, hostRegRead, hwindow]

/-! ### What a command writes (R80, R81, R126) -/

/-- A command's writes leave every byte outside its output regions (R80). -/
theorem readByte_commandWrites_outside {i : Instr} {s : State} (m : Memory) {a : Nat} (ha : ¬ InOutput i s.block a) :
    Memory.readByte (Memory.writeWords m (commandWrites i s)) a = Memory.readByte m a := by
  refine readByte_writeWords_outside fun u hu => ?_
  by_contra hin
  exact ha (commandWrites_inOutput hu (by omega) (by omega))

/-- A command's writes leave every byte of SRC: a ready one's outputs are apart from it, any other writes nothing. -/
theorem readByte_commandWrites_source {i : Instr} {s : State} (m : Memory) {a : Nat}
    (ha : InRegion s.block s.block.srcBase a) :
    Memory.readByte (Memory.writeWords m (commandWrites i s)) a = Memory.readByte m a := by
  by_cases hready : CommandReady i s
  · exact readByte_commandWrites_outside m (not_inOutput_of_inSource hready ha)
  · rw [commandWrites_of_not_ready hready, writeWords_nil]

/-- Settles O40: memory changes by the command's writes alone. -/
theorem commandsWriteOnlyTheirOutput : Obligations.CommandsWriteOnlyTheirOutput := fun i s =>
  ⟨_, exec_eq i s, fun _ ha => readByte_commandWrites_outside s.mem ha,
    fun _ ha => readByte_commandWrites_source s.mem ha⟩

/-! ### The words of the output regions -/

/-- The words of an image at an aligned base are aligned (R75). -/
theorem imageWrites_aligned {base : Word} {w h : Nat} {f : Nat → Nat → Pixel} {u : Nat × Word}
    (hbase : base.toNat % 4 = 0) (hu : u ∈ imageWrites base w h f) : u.1 % 4 = 0 := by
  obtain ⟨x, y, -, -, rfl⟩ := mem_imageWrites.mp hu
  simp only [pixelAddr]
  omega

/-- The words a command writes are aligned (R124, R125). -/
theorem commandWrites_aligned {i : Instr} {s : State} {u : Nat × Word} (hu : u ∈ commandWrites i s) : u.1 % 4 = 0 := by
  by_cases hready : CommandReady i s
  · have hcheck := commandCheck_eq_none.mpr hready
    cases i <;> simp only [commandCheck, imageUsesTmp] at hcheck <;>
      simp only [commandWrites, hcheck, if_true, List.not_mem_nil] at hu
    case matApply => exact imageWrites_aligned hready.1.dstAligned hu
    case convApply => exact imageWrites_aligned hready.1.dstAligned hu
    case blurApply =>
      rcases List.mem_append.mp hu with hu | hu
      · exact imageWrites_aligned (hready.2 rfl).tmpAligned hu
      · exact imageWrites_aligned hready.1.dstAligned hu
  · rw [commandWrites_of_not_ready hready] at hu
    cases hu

/-- Every aligned word of the output regions of a ready command is one of its writes (R81). -/
theorem exists_commandWrite_at {i : Instr} {s : State} (hready : CommandReady i s) {a : Nat}
    (ha : InOutput i s.block a) (haligned : a % 4 = 0) : ∃ v, (a, v) ∈ commandWrites i s := by
  obtain ⟨⟨b, v⟩, hu, hlow, hhigh⟩ := exists_commandWrite hready ha
  have hb := commandWrites_aligned hu
  obtain rfl : a = b := by simp only at hlow hhigh hb; omega
  exact ⟨v, hu⟩

/-- The final value of a word a ready command writes is the value it writes there (R81). -/
theorem readWord_exec {i : Instr} {s u : State} {a : Nat} {v : Word} (hv : (a, v) ∈ commandWrites i s)
    (h : exec i s = .next u) : Memory.readWord u.mem a = v := by
  cases (exec_eq i s).symm.trans h
  exact readWord_writeWords_mem (commandWrites_apart i s) hv

/-! ### A host read while BUSY (R86) -/

/-- A load inside memory is performed (R86). -/
theorem hostLoad_inside {s : State} {addr len : Nat} (load : Memory → Word) (h : addr + len ≤ s.config.memSize) :
    hostLoad s addr len load = .next (recordRead (performSome s (visibleWrites s addr len))
      (load (performSome s (visibleWrites s addr len)).mem)) := by
  unfold hostLoad
  rw [if_neg (by omega)]

theorem visibleWrites_apart (s : State) (addr len : Nat) : WordsApart (visibleWrites s addr len) :=
  (pendingWrites_apart s).filter _

/-- A load of a word the running command writes sees that write. -/
theorem mem_visibleWrites_self {s : State} {a : Nat} {v : Word} (h : (a, v) ∈ pendingWrites s) :
    (a, v) ∈ visibleWrites s a 4 :=
  List.mem_filter.mpr ⟨h, by simp⟩

/-- Settles O51: the load performs some of the writes it can see, and the word at its address is one of them. -/
theorem readWhileBusyIsOldOrFinal : Obligations.ReadWhileBusyIsOldOrFinal := by
  intro s cur i a rest hbusy hd hready hout haligned hhost
  obtain ⟨v, hv⟩ := exists_commandWrite_at hready hout haligned
  have hmove : hostStep s = hostLoad { s with host := rest } a 4 (fun m => Memory.readWord m a) := by
    simp only [hostStep, hhost]
  have hpending : (a, v) ∈ pendingWrites { s with host := rest } := by
    rw [pendingWrites_ok (s := { s with host := rest }) hbusy hd]
    exact hv
  have hword := performSome_word (s := { s with host := rest }) (visibleWrites_apart _ a 4)
    (mem_visibleWrites_self hpending)
  refine ⟨_, _, _, hmove.trans (hostLoad_inside _ (commandWrites_below hv)), exec_eq i s, rfl, rfl, rfl, ?_⟩
  rwa [readWord_exec hv (exec_eq i s)]

/-! ### The regions of the running command (R87) -/

/-- W × H as a count of bytes, for positive dimensions (R75). -/
theorem imageLen_eq_imageBytes {b : Block} (hw : 0 < b.width.toInt) (hh : 0 < b.height.toInt) :
    imageLen b = imageBytes b := by
  unfold imageLen imageBytes imageWidth imageHeight sext
  push_cast
  rw [Int.toNat_of_nonneg hw.le, Int.toNat_of_nonneg hh.le]

theorem imageLen_pos {b : Block} (hw : 0 < b.width.toInt) (hh : 0 < b.height.toInt) : 0 < imageLen b := by
  unfold imageLen
  positivity

/-- An access meets a region exactly when they share a byte. -/
theorem touchesRegion_iff {b : Block} {base : Word} {a len : Nat} (hw : 0 < b.width.toInt) (hh : 0 < b.height.toInt)
    (hlen : 0 < len) : touchesRegion base (imageBytes b) a len = true ↔
      ∃ c, a ≤ c ∧ c < a + len ∧ InRegion b base c := by
  have hbytes := imageLen_eq_imageBytes hw hh
  have hpos := imageLen_pos hw hh
  simp only [touchesRegion, InRegion, Bool.and_eq_true, decide_eq_true_eq, hbytes]
  constructor
  · rintro ⟨⟨hbefore, hafter⟩, -⟩
    exact ⟨max a base.toNat, by omega, by omega, by omega, by omega⟩
  · rintro ⟨c, hlow, hhigh, hfrom, hto⟩
    omega

theorem runningImage_ok {b : Block} {cur : Word} {i : Instr} (hbusy : b.engine = .busy cur) (hd : decode cur = .ok i) :
    runningImage b = imageUsesTmp i := by
  simp only [runningImage, hbusy, hd]

/-- The three image commands (R80). -/
theorem mem_imageCommands_iff {i : Instr} :
    i ∈ [Instr.matApply, .convApply, .blurApply] ↔ ∃ usesTmp, imageUsesTmp i = some usesTmp := by
  cases i <;> simp [imageUsesTmp]

/-- A host write meets a region of the running image command exactly when it shares a byte with SRC or the output
regions (R87). -/
theorem meetsRunningRegion_iff {b : Block} {cur : Word} {i : Instr} {a len : Nat} (hbusy : b.engine = .busy cur)
    (hd : decode cur = .ok i) (hi : i ∈ [Instr.matApply, .convApply, .blurApply]) (hw : 0 < b.width.toInt)
    (hh : 0 < b.height.toInt) (hlen : 0 < len) : meetsRunningRegion b a len = true ↔
      ∃ c, a ≤ c ∧ c < a + len ∧ (InRegion b b.srcBase c ∨ InOutput i b c) := by
  obtain ⟨usesTmp, htmp⟩ := mem_imageCommands_iff.mp hi
  simp only [meetsRunningRegion, runningImage_ok hbusy hd, htmp, InOutput, Bool.or_eq_true, Bool.and_eq_true,
    touchesRegion_iff hw hh hlen]
  constructor
  · rintro ((⟨c, hlow, hhigh, hc⟩ | ⟨c, hlow, hhigh, hc⟩) | ⟨ht, c, hlow, hhigh, hc⟩)
    · exact ⟨c, hlow, hhigh, .inl hc⟩
    · exact ⟨c, hlow, hhigh, .inr (.inl hc)⟩
    · exact ⟨c, hlow, hhigh, .inr (.inr ⟨ht, hc⟩)⟩
  · rintro ⟨c, hlow, hhigh, hc | hc | ⟨ht, hc⟩⟩
    · exact .inl (.inl ⟨c, hlow, hhigh, hc⟩)
    · exact .inl (.inr ⟨c, hlow, hhigh, hc⟩)
    · exact .inr ⟨ht, c, hlow, hhigh, hc⟩

/-- A store inside memory is refused where it meets a region of the running command (R87). -/
theorem hostStore_meets {s : State} {addr len : Nat} (store : Memory → Memory) (hin : addr + len ≤ s.config.memSize)
    (h : meetsRunningRegion s.block addr len = true) :
    hostStore s addr len store = .refused .hostWriteToRunningRegion := by
  unfold hostStore
  rw [if_neg (by omega), if_pos h]

/-- A store inside memory is performed where it meets none (R74). -/
theorem hostStore_apart {s : State} {addr len : Nat} (store : Memory → Memory) (hin : addr + len ≤ s.config.memSize)
    (h : meetsRunningRegion s.block addr len = false) :
    hostStore s addr len store = .next { s with mem := store s.mem } := by
  unfold hostStore
  rw [if_neg (by omega), if_neg (by simp [h])]

/-- Settles O54: both forms of store are `hostStore`, which asks whether a region is met. -/
theorem writeToRunningRegionIsRefused : Obligations.WriteToRunningRegionIsRefused := by
  intro s cur i op a len v b stored rest hbusy hd hi hw hh hop hin hhost
  obtain ⟨store, hlen, rfl, hmove⟩ : ∃ store : Memory → Memory, 0 < len ∧ stored = store s.mem ∧
      hostStep s = hostStore { s with host := rest } a len store := by
    rcases hop with ⟨rfl, rfl, rfl⟩ | ⟨rfl, rfl, rfl⟩
    · exact ⟨fun m => Memory.writeWord m a v, by decide, rfl, by simp only [hostStep, hhost]⟩
    · exact ⟨fun m => Memory.writeByte m a b, by decide, rfl, by simp only [hostStep, hhost]⟩
  have hmeets := meetsRunningRegion_iff (a := a) hbusy hd hi hw hh hlen
  refine ⟨fun hshared => ?_, fun hnone => ?_⟩
  · exact hmove.trans (hostStore_meets store hin (hmeets.mpr hshared))
  · refine hmove.trans (hostStore_apart store hin (Bool.eq_false_iff.mpr fun hm => ?_))
    obtain ⟨c, hlow, hhigh, hc⟩ := hmeets.mp hm
    exact (not_or.mpr (hnone c hlow hhigh)) hc

/-! ### A final value stays (R86) -/

/-- A command with an output byte is an image command, ready only for positive dimensions. -/
theorem imageCommand_of_inOutput {i : Instr} {s : State} {a : Nat} (hready : CommandReady i s)
    (ha : InOutput i s.block a) : i ∈ [Instr.matApply, .convApply, .blurApply] ∧ ImageReady s := by
  rw [mem_imageCommands_iff]
  unfold InOutput at ha
  unfold CommandReady at hready
  cases htmp : imageUsesTmp i with
  | none => simp [htmp] at ha
  | some usesTmp =>
    simp only [htmp] at hready
    exact ⟨⟨usesTmp, rfl⟩, hready.1⟩

/-- A host store that is performed while a ready command runs is apart from the words the command writes (R87). -/
theorem store_apart_of_commandWrite {i : Instr} {s : State} {cur : Word} {addr len : Nat} {u : Nat × Word}
    (hbusy : s.block.engine = .busy cur) (hd : decode cur = .ok i) (hready : CommandReady i s)
    (hu : u ∈ commandWrites i s) (hlen : 0 < len) (h : meetsRunningRegion s.block addr len = false) {c : Nat}
    (hlow : u.1 ≤ c) (hhigh : c < u.1 + 4) : c < addr ∨ addr + len ≤ c := by
  have hout := commandWrites_inOutput hu hlow hhigh
  obtain ⟨hi, himage⟩ := imageCommand_of_inOutput hready hout
  by_contra hin
  have hmeets := (meetsRunningRegion_iff (a := addr) hbusy hd hi himage.width himage.height hlen).mpr
    ⟨c, by omega, by omega, .inr hout⟩
  simp [h] at hmeets

/-- Writes that are apart from a word or write the value it holds leave it. -/
theorem readWord_writeWords_keeps {m : Memory} {ws : List (Nat × Word)} {a : Nat} {v : Word}
    (hws : ∀ u ∈ ws, u = (a, v) ∨ u.1 + 4 ≤ a ∨ a + 4 ≤ u.1) (h : Memory.readWord m a = v) :
    Memory.readWord (Memory.writeWords m ws) a = v := by
  induction ws generalizing m with
  | nil => exact h
  | cons u rest ih =>
    rw [writeWords_cons]
    refine ih (fun w hw => hws w (List.mem_cons_of_mem _ hw)) ?_
    rcases hws u List.mem_cons_self with rfl | hapart
    · exact readWord_writeWord_same m a v
    · rw [readWord_writeWord_apart hapart, h]

/-- Performing pending writes leaves a pending word that holds its final value (R86, R283). -/
theorem performSome_keeps_final {s : State} {ws : List (Nat × Word)} {a : Nat} {v : Word} (hws : ws ⊆ pendingWrites s)
    (hv : (a, v) ∈ pendingWrites s) (h : Memory.readWord s.mem a = v) :
    Memory.readWord (performSome s ws).mem a = v := by
  refine readWord_writeWords_keeps (fun u hu => ?_) h
  by_cases hne : u = (a, v)
  · exact .inl hne
  · exact .inr (wordsApart_of_mem (pendingWrites_apart s) (hws (performedNow_subset hu)) hv hne)

/-- No move of the host takes back a final value of the running command (R86, R87). -/
theorem hostStep_keeps_final {i : Instr} {s t : State} {cur : Word} {a : Nat} {v : Word}
    (hbusy : s.block.engine = .busy cur) (hd : decode cur = .ok i) (hready : CommandReady i s)
    (hv : (a, v) ∈ commandWrites i s) (hfinal : Memory.readWord s.mem a = v) (h : hostStep s = .next t) :
    Memory.readWord t.mem a = v := by
  have hpending : (a, v) ∈ pendingWrites s := pendingWrites_ok hbusy hd ▸ hv
  rcases (hostStep_cases h).2 with ⟨-, hm⟩ | ⟨-, -, -, hm⟩ | ⟨addr, w, -, hmeets, -, hm⟩ | ⟨addr, w, -, hmeets, -, hm⟩ |
      ⟨ws, hws, -, hm⟩ | ⟨-, hm⟩ <;> rw [hm]
  · exact hfinal
  · exact hfinal
  · rw [← hfinal]
    exact readWord_congr fun c hlow hhigh => readByte_writeWord_outside
      (store_apart_of_commandWrite hbusy hd hready hv (by decide) hmeets hlow hhigh)
  · rw [← hfinal]
    refine readWord_congr fun c hlow hhigh => ?_
    have hapart := store_apart_of_commandWrite hbusy hd hready hv (by decide) hmeets hlow hhigh
    rw [readByte_writeByte, if_neg (by omega)]
  · exact performSome_keeps_final hws hpending hfinal
  · exact performSome_keeps_final (List.Subset.refl _) hpending hfinal

/-- Settles O52: the final value is the command's write of the word, which no host move takes back. -/
theorem finalValueIsNeverTakenBack : Obligations.FinalValueIsNeverTakenBack := by
  intro s t u cur i a hbusy hd hready hout haligned hexec hfinal hstep
  obtain ⟨v, hv⟩ := exists_commandWrite_at hready hout haligned
  have hu := readWord_exec hv hexec
  rw [hu] at hfinal ⊢
  exact hostStep_keeps_final hbusy hd hready hv hfinal hstep

end Sys2Proof.Machine

/-! PROOFS. The statements of 30_encoding.md: the decoder and the encoder (R100 to R102, R108), a word that encodes no
command (R101, R107, R253), and the host's accesses to memory that no rule restricts (R109). -/

namespace Sys2Proof.Machine

/-! ### The fields of a command word (R100) -/

/-- OP is the word's lowest hexadecimal digit. -/
theorem op_toNat (w : Word) : (Word.op w).toNat = w.toNat % 16 := by
  rw [Word.op, BitVec.extractLsb'_toNat, Nat.shiftRight_zero]

/-- RSVD is the rest of the word. -/
theorem rsvd_toNat (w : Word) : (Word.rsvd w).toNat = w.toNat / 16 := by
  have hfits : w.toNat / 2 ^ 4 < 2 ^ 28 := by have := w.isLt; omega
  rw [Word.rsvd, BitVec.extractLsb'_toNat, Nat.shiftRight_eq_div_pow, Nat.mod_eq_of_lt hfits]
  rfl

theorem rsvdIsZero_iff (w : Word) : Word.rsvdIsZero w = true ↔ w.toNat / 16 = 0 := by
  rw [Word.rsvdIsZero, beq_iff_eq, ← BitVec.toNat_inj, rsvd_toNat]
  rfl

/-! ### The decoder (R101, R102) -/

/-- With RSVD = 0 the field OP decides (R102). -/
theorem decode_of_rsvd_zero {w : Word} (h : w.toNat / 16 = 0) : decode w = decodeOp (Word.op w) :=
  if_pos ((rsvdIsZero_iff w).mpr h)

/-- Any other RSVD is rejected whatever OP is (R101). -/
theorem decode_of_rsvd_ne_zero {w : Word} (h : w.toNat / 16 ≠ 0) : decode w = .error .reservedBits :=
  if_neg (mt (rsvdIsZero_iff w).mp h)

/-- OP selects the command whose opcode it is (R102). -/
theorem decodeOp_eq_ok_iff {op : BitVec 4} {i : Instr} : decodeOp op = .ok i ↔ op = i.opcode := by
  revert op
  cases i <;> decide

/-- OP is rejected from 0x8 on, always as a reserved OP (R101). -/
theorem decodeOp_eq_error_iff {op : BitVec 4} {e : DecodeError} :
    decodeOp op = .error e ↔ e = .reservedOp ∧ 8 ≤ op.toNat := by
  revert op
  cases e <;> decide

/-- Settles O6: each of the two checks rejects its own words. -/
theorem reservedWordsEncodeNoCommand : Obligations.ReservedWordsEncodeNoCommand := by
  intro w
  by_cases hrsvd : w.toNat / 16 = 0
  · simp [EncodesNoCommand, hrsvd, decode_of_rsvd_zero, decodeOp_eq_error_iff, op_toNat]
  · simp [EncodesNoCommand, hrsvd, decode_of_rsvd_ne_zero]

/-! ### Decoding and encoding (R100, R102, R108) -/

/-- The word of every command is a well-formed word that holds its opcode. -/
theorem encoding_statement : ∀ i : Instr, Laws.Encoding.Statement i
  | .nop => Laws.Encoding.nop
  | .mIdent => Laws.Encoding.mIdent
  | .nSat => Laws.Encoding.nSat
  | .nScaleOff => Laws.Encoding.nScaleOff
  | .mCompose => Laws.Encoding.mCompose
  | .matApply => Laws.Encoding.matApply
  | .convApply => Laws.Encoding.convApply
  | .blurApply => Laws.Encoding.blurApply

/-- The decoder answers a command exactly on that command's word. -/
theorem decode_eq_ok_iff {w : Word} {i : Instr} : decode w = .ok i ↔ w = encode i := by
  obtain ⟨-, -, hnat, -⟩ := encoding_statement i
  have hop : i.opcode.toNat < 16 := i.opcode.isLt
  rw [← BitVec.toNat_inj, hnat]
  by_cases hrsvd : w.toNat / 16 = 0
  · rw [decode_of_rsvd_zero hrsvd, decodeOp_eq_ok_iff, ← BitVec.toNat_inj, op_toNat]
    omega
  · rw [decode_of_rsvd_ne_zero hrsvd]
    exact iff_of_false nofun (by omega)

theorem decode_encode (i : Instr) : decode (encode i) = .ok i := decode_eq_ok_iff.mpr rfl

/-- The four bytes of a command's word give it back and leave what follows (R77, R108). -/
theorem decodeBytes_encodeBytes (i : Instr) (rest : List Byte) :
    decodeBytes (encodeBytes i ++ rest) = some (.ok i, rest) := by
  simp only [encodeBytes, List.cons_append, List.nil_append, decodeBytes, word_of_bytes, decode_encode]

/-- Settles O5: the opcode map is the encoder, word by word. -/
theorem decodingIsTheOpcodeMap : Obligations.DecodingIsTheOpcodeMap := by
  intro w i
  rw [decode_eq_ok_iff]
  cases i <;> rfl

/-- Settles O8: every command is its word, and its word is its four bytes. -/
theorem decodeUndoesEncode : Obligations.DecodeUndoesEncode := fun i rest _ =>
  ⟨decode_encode i, decodeBytes_encodeBytes i rest⟩

/-- Settles O7: the eight words are written out, so the decoder computes each answer. -/
theorem writtenOutWordsDecode : Obligations.WrittenOutWordsDecode := by
  unfold Obligations.WrittenOutWordsDecode
  decide

/-! ### A word that encodes no command (R101) -/

/-- At the engine's turn a step is the engine's move, the turn taken off the schedule (R129). -/
theorem step_of_engineTurn {s : State} {cur : Word} (hbusy : s.block.engine = .busy cur) (hturn : EngineTurn s) :
    step s = engineStep { s with schedule := s.schedule.tail } := by
  rw [step, whoMoves_engine hturn, takeTurn_busy hbusy, moveOf]

/-- Settles O11: the decoder rejects the word, and the completion with code 3 changes STATUS and the engine only. -/
theorem illegalCommandFailsChangingOnlyStatus : Obligations.IllegalCommandFailsChangingOnlyStatus := by
  intro s cur hbusy hillegal hturn
  obtain ⟨e, hd⟩ := (reservedWordsEncodeNoCommand cur).mp hillegal
  rw [step_of_engineTurn hbusy hturn, engineStep_error (s := { s with schedule := s.schedule.tail }) hbusy hd]
  rfl

/-! ### Host stores that meet no region (R87, R109) -/

/-- A running image command is a latched word that decodes to it. -/
theorem runningImage_eq_some {b : Block} {usesTmp : Bool} (h : runningImage b = some usesTmp) :
    ∃ cur i, b.engine = .busy cur ∧ decode cur = .ok i ∧ imageUsesTmp i = some usesTmp := by
  rcases hengine : b.engine with _ | cur
  · simp [runningImage, hengine] at h
  · rcases hd : decode cur with e | i
    · simp [runningImage, hengine, hd] at h
    · exact ⟨cur, i, rfl, hd, runningImage_ok hengine hd ▸ h⟩

/-- A region of the running command has bytes for positive dimensions only (R75). -/
theorem dimensions_pos_of_touchesRegion {b : Block} {base : Word} {a len : Nat}
    (h : touchesRegion base (imageBytes b) a len = true) : 0 < b.width.toInt ∧ 0 < b.height.toInt := by
  have hbytes : imageBytes b ≠ 0 := by
    simp only [touchesRegion, Bool.and_eq_true, decide_eq_true_eq] at h
    exact h.2
  simp only [imageBytes, imageWidth, imageHeight, sext] at hbytes
  constructor <;> by_contra hneg
  · exact hbytes (by simp [Int.toNat_of_nonpos (not_lt.mp hneg)])
  · exact hbytes (by simp [Int.toNat_of_nonpos (not_lt.mp hneg)])

/-- Only an image command of positive dimensions has regions to meet (R87). -/
theorem running_of_meetsRunningRegion {b : Block} {a len : Nat} (h : meetsRunningRegion b a len = true) :
    ∃ cur i, b.engine = .busy cur ∧ decode cur = .ok i ∧ i ∈ [Instr.matApply, .convApply, .blurApply] ∧
      0 < b.width.toInt ∧ 0 < b.height.toInt := by
  unfold meetsRunningRegion at h
  split at h
  · cases h
  · rename_i usesTmp himage
    obtain ⟨cur, i, hbusy, hd, htmp⟩ := runningImage_eq_some himage
    refine ⟨cur, i, hbusy, hd, mem_imageCommands_iff.mpr ⟨usesTmp, htmp⟩, ?_⟩
    simp only [Bool.or_eq_true, Bool.and_eq_true] at h
    rcases h with (h | h) | ⟨-, h⟩ <;> exact dimensions_pos_of_touchesRegion h

/-- No rule restricts a host store of `len` bytes at `a`: inside memory, it shares no byte with SRC or an output region
of a running image command of positive dimensions (R71, R87). -/
def StoreUnrestricted (s : State) (a len : Nat) : Prop :=
  a + len ≤ s.config.memSize ∧ ∀ cur i, s.block.engine = .busy cur → decode cur = .ok i →
    i ∈ [Instr.matApply, .convApply, .blurApply] → 0 < s.block.width.toInt → 0 < s.block.height.toInt →
    ∀ c, a ≤ c → c < a + len → ¬ InRegion s.block s.block.srcBase c ∧ ¬ InOutput i s.block c

theorem StoreUnrestricted.meets_no_region {s : State} {a len : Nat} (h : StoreUnrestricted s a len)
    (hlen : 0 < len) : meetsRunningRegion s.block a len = false := by
  refine Bool.eq_false_iff.mpr fun hmeets => ?_
  obtain ⟨cur, i, hbusy, hd, hi, hw, hh⟩ := running_of_meetsRunningRegion hmeets
  obtain ⟨c, hlow, hhigh, hc⟩ := (meetsRunningRegion_iff hbusy hd hi hw hh hlen).mp hmeets
  exact not_or.mpr (h.2 cur i hbusy hd hi hw hh c hlow hhigh) hc

/-- An unrestricted store is performed, and it is all that changes (R74). -/
theorem StoreUnrestricted.performed {s : State} {a len : Nat} (h : StoreUnrestricted s a len) (hlen : 0 < len)
    (rest : List HostOp) (store : Memory → Memory) :
    hostStore { s with host := rest } a len store = .next { s with host := rest, mem := store s.mem } :=
  hostStore_apart (s := { s with host := rest }) store h.1 (h.meets_no_region hlen)

/-! ### Host loads that meet no output byte (R86, R109) -/

/-- No rule restricts a host load of `len` bytes at `a`: inside memory, it shares no byte with the output regions of a
running command that passes its checks (R71, R86). -/
def LoadUnrestricted (s : State) (a len : Nat) : Prop :=
  a + len ≤ s.config.memSize ∧ ∀ cur i, s.block.engine = .busy cur → decode cur = .ok i → CommandReady i s →
    ∀ c, a ≤ c → c < a + len → ¬ InOutput i s.block c

/-- An unrestricted load sees no pending write: each lies in an output region (R80). -/
theorem LoadUnrestricted.sees_no_write {s : State} {a len : Nat} (h : LoadUnrestricted s a len) (hlen : 0 < len) :
    visibleWrites s a len = [] := by
  refine List.filter_eq_nil_iff.mpr fun u hu hsees => ?_
  simp only [Bool.and_eq_true, decide_eq_true_eq] at hsees
  rcases pendingWrites_cases s with hnone | ⟨cur, i, hbusy, hd, hwrites⟩
  · simp [hnone] at hu
  · rw [hwrites] at hu
    have hready : CommandReady i s := by
      by_contra hfails
      simp [commandWrites_of_not_ready hfails] at hu
    exact h.2 cur i hbusy hd hready (max a u.1) (by omega) (by omega)
      (commandWrites_inOutput hu (by omega) (by omega))

/-- An unrestricted load records what memory holds and changes no byte; the counter of free values moves (log 18). -/
theorem LoadUnrestricted.performed {s : State} {a len : Nat} (h : LoadUnrestricted s a len) (hlen : 0 < len)
    (rest : List HostOp) (load : Memory → Word) : hostLoad { s with host := rest } a len load =
      .next { s with host := rest, reads := load s.mem :: s.reads, draws := s.draws + 1 } := by
  have hsees : visibleWrites { s with host := rest } a len = [] := h.sees_no_write hlen
  rw [hostLoad_inside (s := { s with host := rest }) load h.1, hsees]
  rfl

/-- Settles O55: a store and a load of either width is an unrestricted `hostStore` or `hostLoad`. -/
theorem unrestrictedHostAccessesArePerformed : Obligations.UnrestrictedHostAccessesArePerformed := by
  intro s a v b rest mayStore plainLoad
  refine ⟨fun (h : StoreUnrestricted s a 4) hhost => ?_, fun (h : StoreUnrestricted s a 1) hhost => ?_,
    fun (h : LoadUnrestricted s a 4) hhost => ?_, fun (h : LoadUnrestricted s a 1) hhost => ?_⟩ <;>
    simp only [hostStep, hhost]
  · exact h.performed (by decide) rest _
  · exact h.performed (by decide) rest _
  · exact ⟨_, h.performed (by decide) rest _, rfl⟩
  · exact ⟨_, h.performed (by decide) rest _, rfl⟩

end Sys2Proof.Machine

/-! PROOFS. The statements of 40_command_lifecycle.md: what a step is (R120, R129, R131), the START (R121), the checks and
the completion (R122 to R127, R130), and what the host can do to a running command (R129). -/

namespace Sys2Proof.Machine

/-! ### What a step is (R120, R129, R131) -/

/-- At the engine's turn a step is the latched command, the turn taken off the schedule (R120). -/
theorem step_of_latched {s : State} {cur : Word} {i : Instr} (hbusy : s.block.engine = .busy cur)
    (hd : decode cur = .ok i) (hturn : EngineTurn s) : step s = exec i { s with schedule := s.schedule.tail } :=
  (step_of_engineTurn hbusy hturn).trans (engineStep_ok (s := { s with schedule := s.schedule.tail }) hbusy hd)

/-- Settles O9: the engine has the turn, and its move is the decoded command. -/
theorem engineTurnRunsTheLatchedCommand : Obligations.EngineTurnRunsTheLatchedCommand := fun _ _ _ => step_of_latched

/-- An IDLE engine leaves the step to the host (R131). -/
theorem step_idle {s : State} (hidle : s.block.engine = .idle) : step s = hostStep s := by
  rw [step, whoMoves_idle hidle, takeTurn_idle hidle, moveOf]

/-- With no move left the host waits. -/
theorem hostStep_nil {s : State} (hhost : s.host = []) : hostStep s = .next s := by
  simp only [hostStep, hhost]

theorem whoMoves_host {s : State} {cur : Word} {op : HostOp} {rest : List HostOp} {turns : List Turn}
    (hbusy : s.block.engine = .busy cur) (hhost : s.host = op :: rest) (hsched : s.schedule = .host :: turns) :
    whoMoves s = .host := by
  simp only [whoMoves, hbusy, hhost, hsched]

/-- Settles O10: while IDLE `step_idle`, while BUSY the turn is the host's. -/
theorem hostTurnRunsTheFirstHostMove : Obligations.HostTurnRunsTheFirstHostMove := by
  refine ⟨fun s hidle => step_idle hidle, fun s hidle hhost => (step_idle hidle).trans (hostStep_nil hhost),
    fun s cur op rest turns hbusy hhost hsched => ?_⟩
  rw [step, whoMoves_host hbusy hhost hsched, takeTurn_busy hbusy, hsched, moveOf, List.tail_cons]

/-- The word placed for a command is its word: 32 bits hold it. -/
theorem withFetchWord_encode (s : State) (i : Instr) :
    s.withFetchWord 32 (encode i).toNat = placeCommand s (encode i) := by
  rw [State.withFetchWord, Nat.mod_eq_of_lt (encode i).isLt, BitVec.ofNat_toNat, BitVec.setWidth_eq]

/-- A placed command is BUSY with the engine's turn next (log 12). -/
theorem placeCommand_engineTurn (s : State) (w : Word) : EngineTurn (placeCommand s w) :=
  ⟨rfl, .inr (.inr ⟨s.schedule, rfl⟩)⟩

/-- Settles O12: the placed word is latched, decodes to its command, and the engine has the turn. -/
theorem placedCommandRunsNext : Obligations.PlacedCommandRunsNext := by
  intro s i
  rw [withFetchWord_encode]
  exact step_of_latched rfl (decode_encode i) (placeCommand_engineTurn s _)

/-! ### START (R121) -/

/-- A write to CTRL with SRST clear is `writeCtrl` (R35). -/
theorem busWrite_ctrl {s : State} {w : Word} (hsrst : w.getLsbD 2 = false) :
    busWrite s 0x008 w = { s with block := writeCtrl s.block w } := by
  rw [busWrite, if_neg fun hreset => Bool.false_ne_true (hsrst.symm.trans hreset.2)]
  rfl

/-- A CTRL write with bit 0 set is a START, IRQ_EN applied first (R35). -/
theorem writeCtrl_start {w : Word} (b : Block) (hstart : w.getLsbD 0 = true) :
    writeCtrl b w = applyStart { b with irqEn := w.getLsbD 1 } := if_pos hstart

theorem applyStart_idle {b : Block} (hidle : b.engine = .idle) : applyStart b = acceptStart b := by
  simp only [applyStart, hidle]

theorem applyStart_busy {b : Block} {cur : Word} (hbusy : b.engine = .busy cur) : applyStart b = ignoreWrite b := by
  simp only [applyStart, hbusy]

/-- After an accepted START with WIGN clear, STATUS reads as BUSY alone (R37, R121). -/
theorem statusWord_acceptStart {b : Block} (hwign : b.status.wign = false) : statusWord (acceptStart b) = 1 := by
  apply BitVec.eq_of_toNat_eq
  simp [statusWord_toNat, hwign]

/-- Settles O13: the CTRL write is `applyStart`, which accepts while IDLE and sets WIGN while BUSY. -/
theorem startIsAcceptedOnlyWhileIdle : Obligations.StartIsAcceptedOnlyWhileIdle := by
  intro s rest w hstart hsrst hhost
  refine ⟨_, hostStep_regWrite (by decide) (by decide) hhost, ?_⟩
  rw [busWrite_ctrl hsrst, writeCtrl_start _ hstart]
  refine ⟨rfl, rfl, fun hidle => ?_, fun hidle hwign => ?_, fun cur hbusy => ?_⟩
  · exact applyStart_idle (b := { s.block with irqEn := w.getLsbD 1 }) hidle
  · have haccept := applyStart_idle (b := { s.block with irqEn := w.getLsbD 1 }) hidle
    simp only [readReg, haccept]
    exact statusWord_acceptStart hwign
  · exact applyStart_busy (b := { s.block with irqEn := w.getLsbD 1 }) hbusy

/-! ### Completion (R126, R127) -/

@[simp] theorem doneWith_status (s : State) (b : Block) :
    (doneWith s b).block.status = { b.status with done := true } := rfl

/-- The checks of a command report InvalidInput or AllocationFailure, never IllegalCommand (R122). -/
theorem commandCheck_code {i : Instr} {s : State} {e : ErrorCode} (h : commandCheck i s = some e) :
    e = .invalidInput ∨ e = .allocationFailure := by
  unfold commandCheck at h
  split at h
  · cases h
  · unfold imageCheck at h
    split_ifs at h <;> cases h <;> simp

/-- Only an image command can fail (R130), and it writes no coefficient register (R32). -/
theorem commandEffect_of_check {i : Instr} {s : State} {e : ErrorCode} (h : commandCheck i s = some e) :
    commandEffect i s.block = s.block := by
  cases i
  case matApply | convApply | blurApply => rfl
  all_goals cases h

/-- A command whose check fails changes STATUS and the engine only (R126). -/
theorem exec_failed {i : Instr} {s : State} {e : ErrorCode} (h : commandCheck i s = some e) :
    exec i s = .next (failedWith s e.bits) := by
  have hfails : ¬ CommandReady i s := fun hready => (by simp [commandCheck_eq_none.mpr hready] at h)
  rw [exec_eq, h, commandEffect_of_check h, commandWrites_of_not_ready hfails, writeWords_nil]
  rfl

/-- Settles O14: a command whose checks pass is `exec_ready`, any other `exec_failed` with one of the two codes. -/
theorem everyCommandCompletes : Obligations.EveryCommandCompletes := by
  intro i s
  rcases hcheck : commandCheck i s with _ | e
  · have hready := commandCheck_eq_none.mp hcheck
    exact ⟨_, exec_ready hready, rfl, rfl, by simp, .inl ⟨rfl, by simp, by simp⟩⟩
  · refine ⟨_, exec_failed hcheck, rfl, rfl, rfl, .inr ?_⟩
    rcases commandCheck_code hcheck with rfl | rfl
    · exact .inl rfl
    · exact .inr rfl

/-! ### The order of the checks (R122 to R125) -/

/-- The code the checks report as a number, 0 when all pass. -/
def checkCode : Option ErrorCode → Nat
  | none => 0
  | some e => e.bits.toNat

theorem dimensionsBad_eq_true {b : Block} : dimensionsBad b = true ↔
    (b.width.toInt ≤ 0 ∨ b.height.toInt ≤ 0) ∨ (b.srcLen.toNat : Int) ≠ b.width.toInt * b.height.toInt := by
  simp only [dimensionsBad, Bool.or_eq_true, decide_eq_true_eq]
  rfl

theorem regionUnusable_eq_true {c : Config} {base : Word} {n : Int} : regionUnusable c base n = true ↔
    (base.toNat : Int) % 4 ≠ 0 ∨ (base.toNat : Int) + n > c.memSize := by
  rw [← Bool.not_eq_false, regionUnusable_eq_false]
  omega

theorem regionsOverlap_eq_true {a b : Word} {n : Int} : regionsOverlap a b n = true ↔
    (a.toNat : Int) < b.toNat + n ∧ (b.toNat : Int) < a.toNat + n := by
  rw [← Bool.not_eq_false, regionsOverlap_eq_false]
  omega

theorem destinationBad_eq_true {c : Config} {b : Block} : destinationBad c b = true ↔
    (b.dstBase.toNat : Int) % 4 ≠ 0 ∨ (b.dstBase.toNat : Int) + imageLen b > c.memSize ∨
      ((b.dstBase.toNat : Int) < b.srcBase.toNat + imageLen b ∧
        (b.srcBase.toNat : Int) < b.dstBase.toNat + imageLen b) := by
  rw [destinationBad, Bool.or_eq_true, regionUnusable_eq_true, regionsOverlap_eq_true, regionBytes_eq, or_assoc]

theorem intermediateBad_eq_true {c : Config} {b : Block} : intermediateBad c b = true ↔
    (b.tmpBase.toNat : Int) % 4 ≠ 0 ∨ (b.tmpBase.toNat : Int) + imageLen b > c.memSize ∨
      ((b.tmpBase.toNat : Int) < b.srcBase.toNat + imageLen b ∧
        (b.srcBase.toNat : Int) < b.tmpBase.toNat + imageLen b) ∨
      ((b.tmpBase.toNat : Int) < b.dstBase.toNat + imageLen b ∧
        (b.dstBase.toNat : Int) < b.tmpBase.toNat + imageLen b) := by
  rw [intermediateBad, Bool.or_eq_true, Bool.or_eq_true, regionUnusable_eq_true, regionsOverlap_eq_true,
    regionsOverlap_eq_true, regionBytes_eq, or_assoc, or_assoc]

/-- The code of an image command is the spec's, check by check in the same order. -/
theorem specCode_image {cur : Word} (c : Config) (b : Block) (hlow : 5 ≤ cur.toNat) (hhigh : cur.toNat < 8) :
    specCode cur c b = checkCode (imageCheck (decide (cur.toNat = 7)) c b) := by
  simp only [specCode, imageCheck, dimensionsBad_eq_true, regionUnusable_eq_true, destinationBad_eq_true,
    Bool.and_eq_true, decide_eq_true_eq, intermediateBad_eq_true, regionBytes_eq, apply_ite checkCode]
  rw [if_neg (by omega), if_neg (by omega), ite_or (b.width.toInt ≤ 0 ∨ b.height.toInt ≤ 0)]
  rfl

/-- A word from 8 on, RSVD bits included, has code 3 (R101). -/
theorem specCode_illegal {cur : Word} (c : Config) (b : Block) (h : EncodesNoCommand cur) : specCode cur c b = 3 := by
  have hlow : 8 ≤ cur.toNat := by unfold EncodesNoCommand at h; omega
  exact if_pos hlow

/-- A command that touches no memory has nothing to fail (R130). -/
theorem specCode_algebra {cur : Word} (c : Config) (b : Block) (h : cur.toNat < 5) : specCode cur c b = 0 := by
  simp only [specCode]
  rw [if_neg (by omega), if_pos h]

/-- The spec's code of a command is the code its checks report. -/
theorem specCode_encode (i : Instr) (s : State) :
    specCode (encode i) s.config s.block = checkCode (commandCheck i s) := by
  cases i
  case matApply | convApply | blurApply => exact specCode_image s.config s.block (by decide) (by decide)
  all_goals exact specCode_algebra s.config s.block (by decide)

/-- Settles O15: a word that encodes no command has code 3; a command's code is that of its checks. -/
theorem firstFailingCheckGivesTheCode : Obligations.FirstFailingCheckGivesTheCode := by
  intro s cur hbusy hturn
  rcases hd : decode cur with e | i
  · have hillegal := (reservedWordsEncodeNoCommand cur).mpr ⟨e, hd⟩
    rw [specCode_illegal s.config s.block hillegal]
    exact ⟨_, illegalCommandFailsChangingOnlyStatus s cur hbusy hillegal hturn, nofun, fun _ => rfl⟩
  · have hstep := step_of_latched hbusy hd hturn
    have hcode := specCode_encode i { s with schedule := s.schedule.tail }
    obtain rfl := decode_eq_ok_iff.mp hd
    simp only at hcode
    rw [hcode]
    rcases hcheck : commandCheck i { s with schedule := s.schedule.tail } with _ | e
    · refine ⟨_, hstep.trans (exec_ready (commandCheck_eq_none.mp hcheck)), fun _ => ?_, fun hne => absurd rfl hne⟩
      exact ⟨by simp, rfl⟩
    · have hnonzero : e.bits.toNat ≠ 0 := by cases e <;> decide
      refine ⟨_, hstep.trans (exec_failed hcheck), fun hzero => absurd hzero hnonzero, fun _ => ?_⟩
      rw [checkCode, BitVec.ofNat_toNat, BitVec.setWidth_eq]

/-! ### The commands that touch no memory (R128, R130) -/

/-- The five commands that touch no memory. -/
theorem mem_algebraCommands_iff {i : Instr} :
    i ∈ [Instr.nop, .mIdent, .nSat, .nScaleOff, .mCompose] ↔ imageUsesTmp i = none := by
  cases i <;> simp [imageUsesTmp]

/-- They have no check to fail and nothing to write, so each is its effect and success (R130). -/
theorem exec_algebra {i : Instr} (h : imageUsesTmp i = none) (s : State) :
    exec i s = .next (doneWith s (commandEffect i s.block)) := by
  have hready : CommandReady i s := by simp only [CommandReady, h]
  have hwrites : commandWrites i s = [] := by
    cases i
    case matApply | convApply | blurApply => cases h
    all_goals rfl
  rw [exec_ready hready, hwrites, writeWords_nil]

/-- A command's effect on M and N is a function of M, N, PARAM0 and PARAM1. -/
theorem commandEffect_congr (i : Instr) {b b' : Block} (hm : b'.m = b.m) (hn : b'.n = b.n)
    (hp0 : b'.param0 = b.param0) (hp1 : b'.param1 = b.param1) :
    (commandEffect i b').m = (commandEffect i b).m ∧ (commandEffect i b').n = (commandEffect i b).n := by
  cases i <;> simp only [commandEffect, hm, hn, hp0, hp1, and_self]

/-- Settles O16: each of the five is `exec_algebra`, whose M and N `commandEffect_congr` compares. -/
theorem algebraCommandsAlwaysSucceed : Obligations.AlgebraCommandsAlwaysSucceed := by
  intro i s s' hi hm hn hp0 hp1
  have htmp := mem_algebraCommands_iff.mp hi
  exact ⟨_, _, exec_algebra htmp s, exec_algebra htmp s', by simp, rfl,
    commandEffect_congr i hm hn hp0 hp1⟩

/-- Settles O17: NOP has no effect of its own. -/
theorem nopOnlyCompletes : Obligations.NopOnlyCompletes := fun s => exec_algebra (i := .nop) rfl s

/-! ### Every accepted command completes (R129) -/

theorem busWrite_schedule (s : State) (off : Nat) (w : Word) : (busWrite s off w).schedule = s.schedule := by
  unfold busWrite
  split_ifs <;> rfl

/-- No move of the host changes the schedule, which is the model's input (log 1). -/
theorem hostStep_schedule {s t : State} (h : hostStep s = .next t) : t.schedule = s.schedule := by
  unfold hostStep at h
  split at h
  case h_1 => cases h; rfl
  case h_2 => obtain ⟨off, -, rfl⟩ := hostRegWrite_cases h; exact busWrite_schedule _ _ _
  case h_3 => obtain ⟨w, rfl⟩ := hostRegRead_cases h; rfl
  case h_4 | h_6 => obtain ⟨-, -, rfl⟩ := hostStore_cases h; rfl
  case h_5 | h_7 => obtain ⟨-, rfl⟩ := hostLoad_cases h; rfl
  case h_8 | h_9 => cases h; split <;> rfl
  case h_10 => cases h; rfl

/-- While BUSY a move of the host takes one turn off the schedule. -/
theorem host_turn_uses_schedule {s t : State} {cur : Word} (hbusy : s.block.engine = .busy cur)
    (hturn : whoMoves s = .host) (h : step s = .next t) : s.schedule.length = t.schedule.length + 1 := by
  rw [step, hturn, moveOf, takeTurn_busy hbusy] at h
  rw [hostStep_schedule h]
  cases hsched : s.schedule with
  | nil => simp [whoMoves, hbusy, hsched] at hturn
  | cons _ turns => rfl

/-- A run starts with the first step. -/
theorem run_succ {s t : State} (h : step s = .next t) (k : Nat) : core.run (k + 1) s = core.run k t := by
  have hcore : core.step s = .next t := h
  simp only [Host.Core.run, hcore]

/-- Within `n` steps the engine is IDLE, or before that the host stops the run. -/
def CompletesWithin (n : Nat) (s : State) : Prop :=
  ∃ k, k ≤ n ∧ ((∃ t, core.run k s = .next t ∧ t.block.engine = .idle) ∨
    ∃ k' t, k' < k ∧ core.run k' s = .next t ∧ whoMoves t = .host ∧ ∀ t', step t ≠ .next t')

theorem completesWithin_of_idle {s : State} (n : Nat) (h : s.block.engine = .idle) : CompletesWithin n s :=
  ⟨0, Nat.zero_le n, .inl ⟨s, rfl, h⟩⟩

theorem completesWithin_of_stop {s : State} (n : Nat) (hturn : whoMoves s = .host) (h : ∀ t, step s ≠ .next t) :
    CompletesWithin (n + 1) s :=
  ⟨1, Nat.succ_pos n, .inr ⟨0, s, Nat.zero_lt_one, rfl, hturn, h⟩⟩

theorem CompletesWithin.of_step {s t : State} {n : Nat} (ht : CompletesWithin n t) (h : step s = .next t) :
    CompletesWithin (n + 1) s := by
  obtain ⟨k, hk, ⟨u, hrun, hidle⟩ | ⟨k', u, hk', hrun, hstop⟩⟩ := ht
  · exact ⟨k + 1, Nat.succ_le_succ hk, .inl ⟨u, (run_succ h k).trans hrun, hidle⟩⟩
  · exact ⟨k + 1, Nat.succ_le_succ hk, .inr ⟨k' + 1, u, Nat.succ_lt_succ hk', (run_succ h k').trans hrun, hstop⟩⟩

/-- By recursion on the schedule: the engine's move completes the command, and a move of the host uses up a turn. -/
theorem completesWithin_schedule (s : State) : CompletesWithin (s.schedule.length + 1) s := by
  rcases hengine : s.block.engine with _ | cur
  · exact completesWithin_of_idle _ hengine
  rcases step_cases s with ⟨-, hstep⟩ | ⟨hturn, -⟩
  · obtain ⟨t, ht, hidle, -⟩ := engineStep_next (takeTurn s)
    exact (completesWithin_of_idle _ hidle).of_step (hstep.trans ht)
  · by_cases hmoves : ∃ t, step s = .next t
    · obtain ⟨t, ht⟩ := hmoves
      have hlength := host_turn_uses_schedule hengine hturn ht
      rw [hlength]
      exact (completesWithin_schedule t).of_step ht
    · exact completesWithin_of_stop _ hturn (not_exists.mp hmoves)
termination_by s.schedule.length

/-- Settles O59: the bound holds from every state, BUSY or not. -/
theorem acceptedCommandsComplete : Obligations.AcceptedCommandsComplete := fun s _ _ => completesWithin_schedule s

/-! ### What the host leaves to the running command (R40, R86, R87) -/

/-- The writes of a command depend on neither IRQ_EN nor the flags. -/
theorem commandWrites_flags (i : Instr) (s : State) (e : Bool) (f : Status) :
    commandWrites i { s with block := { s.block with irqEn := e, status := f } } = commandWrites i s := by
  cases i <;> rfl

/-- Nor do its checks. -/
theorem commandCheck_flags (i : Instr) (s : State) (e : Bool) (f : Status) :
    commandCheck i { s with block := { s.block with irqEn := e, status := f } } = commandCheck i s := by
  cases i <;> rfl

/-- A command's effect on the block passes IRQ_EN and the flags through. -/
theorem commandEffect_flags (i : Instr) (b : Block) (e : Bool) (f : Status) :
    commandEffect i { b with irqEn := e, status := f } = { commandEffect i b with irqEn := e, status := f } := by
  cases i <;> rfl

/-- A host store that is performed while an image command of positive dimensions runs is apart from SRC (R87). -/
theorem store_apart_of_source {i : Instr} {b : Block} {cur : Word} {addr len c : Nat} (hbusy : b.engine = .busy cur)
    (hd : decode cur = .ok i) (hi : i ∈ [Instr.matApply, .convApply, .blurApply]) (hw : 0 < b.width.toInt)
    (hh : 0 < b.height.toInt) (hlen : 0 < len) (h : meetsRunningRegion b addr len = false)
    (hc : InRegion b b.srcBase c) : c < addr ∨ addr + len ≤ c := by
  by_contra hin
  have hmeets := (meetsRunningRegion_iff (a := addr) hbusy hd hi hw hh hlen).mpr ⟨c, by omega, by omega, .inl hc⟩
  simp [h] at hmeets

/-- Performing pending writes leaves SRC, which a ready command does not write (R80, R86). -/
theorem performSome_keeps_source {i : Instr} {s : State} {cur : Word} {ws : List (Nat × Word)} {c : Nat}
    (hbusy : s.block.engine = .busy cur) (hd : decode cur = .ok i) (hready : CommandReady i s)
    (hws : ws ⊆ pendingWrites s) (hc : InRegion s.block s.block.srcBase c) :
    Memory.readByte (performSome s ws).mem c = Memory.readByte s.mem c := by
  refine performSome_outside fun u hu => ?_
  have hwrite : u ∈ commandWrites i s := pendingWrites_ok hbusy hd ▸ hws hu
  by_contra hin
  exact not_inOutput_of_inSource hready hc (commandWrites_inOutput hwrite (by omega) (by omega))

/-- No move of the host changes a byte of SRC while a ready image command runs (R86, R87). -/
theorem hostStep_keeps_source {i : Instr} {s t : State} {cur : Word} {c : Nat} (hbusy : s.block.engine = .busy cur)
    (hd : decode cur = .ok i) (hi : i ∈ [Instr.matApply, .convApply, .blurApply]) (himage : ImageReady s)
    (hready : CommandReady i s) (h : hostStep s = .next t) (hc : InRegion s.block s.block.srcBase c) :
    Memory.readByte t.mem c = Memory.readByte s.mem c := by
  have apart {addr len : Nat} (hlen : 0 < len) (hmeets : meetsRunningRegion s.block addr len = false) :
      c < addr ∨ addr + len ≤ c :=
    store_apart_of_source hbusy hd hi himage.width himage.height hlen hmeets hc
  rcases (hostStep_cases h).2 with ⟨-, hm⟩ | ⟨-, -, -, hm⟩ | ⟨addr, w, -, hmeets, -, hm⟩ | ⟨addr, w, -, hmeets, -, hm⟩ |
      ⟨ws, hws, -, hm⟩ | ⟨-, hm⟩ <;> rw [hm]
  · exact readByte_writeWord_outside (apart (by decide) hmeets)
  · have hapart := apart (by decide) hmeets
    rw [readByte_writeByte, if_neg (by omega)]
  · exact performSome_keeps_source hbusy hd hready hws hc
  · exact performSome_keeps_source hbusy hd hready (List.Subset.refl _) hc

/-- A ready command performs the same writes from a state that differs in IRQ_EN, the flags and bytes outside SRC. -/
theorem commandWrites_eq_of_operands {i : Instr} {s t : State} (hconfig : t.config = s.config)
    (hblock : t.block = { s.block with irqEn := t.block.irqEn, status := t.block.status })
    (hsrc : ∀ c, InRegion s.block s.block.srcBase c → Memory.readByte t.mem c = Memory.readByte s.mem c) :
    commandWrites i t = commandWrites i s := by
  rw [← commandWrites_flags i s t.block.irqEn t.block.status]
  exact commandWrites_congr hblock hconfig hsrc

/-- Readiness is the same in such a state. -/
theorem commandReady_iff_of_operands {i : Instr} {s t : State} (hconfig : t.config = s.config)
    (hblock : t.block = { s.block with irqEn := t.block.irqEn, status := t.block.status }) :
    CommandReady i t ↔ CommandReady i s := by
  rw [← commandCheck_eq_none, ← commandCheck_eq_none, ← commandCheck_flags i s t.block.irqEn t.block.status,
    commandCheck_eq_none, commandCheck_eq_none]
  exact commandReady_congr hblock hconfig

/-- Settles O60: the host reaches IRQ_EN, the flags and bytes outside SRC only, so the command's effect and writes stay
what they were, and its writes fix every output byte. -/
theorem hostCannotDisturbTheRunningCommand : Obligations.HostCannotDisturbTheRunningCommand := by
  intro s t u cur i hbusy hd hready hexec hstep hreset
  have hconfig := (hostStep_cases hstep).1
  have hblock := (operandsStayConstantWhileBusy s t cur hbusy hstep).resolve_left hreset
  have hready' : CommandReady i t := (commandReady_iff_of_operands hconfig hblock).mpr hready
  have heffect := commandEffect_flags i s.block t.block.irqEn t.block.status
  rw [← hblock] at heffect
  cases (exec_ready hready).symm.trans hexec
  refine ⟨hblock ▸ hbusy, hready', _, exec_ready hready', ?_, ?_, rfl, fun a ha => ?_⟩
  · simp only [doneWith, heffect]
  · simp only [doneWith, heffect]
  · obtain ⟨hi, himage⟩ := imageCommand_of_inOutput hready ha
    have hwrites : commandWrites i t = commandWrites i s := commandWrites_eq_of_operands hconfig hblock
      fun _ hc => hostStep_keeps_source hbusy hd hi himage hready hstep hc
    simp only [doneWith, hwrites]
    exact readByte_commandWrites hready ha s.mem t.mem

end Sys2Proof.Machine

/-! PROOFS. The statements of 41_matrix_algebra.md: what each algebra command makes of M or N (R136 to R140) and the
laws of composition (R142 to R144). -/

namespace Sys2Proof.Machine

/-! ### Coefficients of a matrix (R17, R18) -/

@[simp] theorem coeffRow_coeffIndex (i : Fin 4) (j : Fin 5) : coeffRow (coeffIndex i j) = i := by
  apply Fin.ext
  simp only [coeffRow, coeffIndex]
  omega

@[simp] theorem coeffCol_coeffIndex (i : Fin 4) (j : Fin 5) : coeffCol (coeffIndex i j) = j := by
  apply Fin.ext
  simp only [coeffCol, coeffIndex]
  omega

theorem coeffIndex_coeffRow_coeffCol (t : Fin 20) : coeffIndex (coeffRow t) (coeffCol t) = t := by
  apply Fin.ext
  simp only [coeffIndex, coeffRow, coeffCol]
  omega

/-- A stored coefficient reads back as the word the integer was stored as (R17). -/
theorem coeff_storeMatrix (v : Vector Int 20) (i : Fin 4) (j : Fin 5) :
    coeff (storeMatrix v) i j = sext (toWord v[coeffIndex i j]) := by
  simp [coeff, storeMatrix]

/-- A matrix is its 20 coefficients: the sign extension of a word loses nothing. -/
theorem colorMatrix_ext {a b : ColorMatrix} (h : ∀ i j, coeff a i j = coeff b i j) : a = b := by
  apply Vector.ext
  intro t ht
  have hcoeff := h (coeffRow ⟨t, ht⟩) (coeffCol ⟨t, ht⟩)
  simp only [coeff, coeffIndex_coeffRow_coeffCol] at hcoeff
  exact BitVec.eq_of_toInt_eq hcoeff

theorem sext_toWord_zero : sext (toWord 0) = 0 := rfl

theorem sext_toWord_one : sext (toWord 65536) = 65536 := rfl

/-! ### M_IDENT (R139) -/

/-- Settles O18: M_IDENT stores the literal matrix of R139. -/
theorem mIdentWritesTheIdentity : Obligations.MIdentWritesTheIdentity := fun s =>
  ⟨_, exec_algebra (i := .mIdent) rfl s, by decide⟩

/-! ### N_SAT (R136, R137) -/

/-- Settles O26: each weight is one evaluation of `q16` at its literal. -/
theorem lumaWeightsAreTheEncodedLiterals : Obligations.LumaWeightsAreTheEncodedLiterals := by
  unfold Obligations.LumaWeightsAreTheEncodedLiterals
  decide

/-- The luma weight of a column, 0 in the alpha and the offset column (R136, R137). -/
def lumaWeight : Fin 5 → Int := ![lumaR, lumaG, lumaB, 0, 0]

theorem lumaWeight_bounds (j : Fin 5) : 0 ≤ lumaWeight j ∧ lumaWeight j ≤ lumaG := by
  decide +revert

/-- The entries of the saturation matrix (R137). -/
theorem saturationMatrix_coeffIndex (s : Int) (i : Fin 4) (j : Fin 5) :
    (saturationMatrix s)[coeffIndex i j] =
      if i = 3 then (if j = 3 then 65536 else 0)
      else if j = 3 ∨ j = 4 then 0
      else if i.val = j.val then sat32 (weightTerm (lumaWeight j) s + s) else weightTerm (lumaWeight j) s := by
  fin_cases i <;> fin_cases j <;> rfl

/-- A quotient between two integers rounds to between them. -/
theorem rha_between {p lo hi : Int} {q : Nat} (hq : 0 < q) (hlo : q * lo ≤ p) (hhi : p ≤ q * hi) :
    lo ≤ rha p q ∧ rha p q ≤ hi := by
  have hlow := rha_mono hq hlo
  have hhigh := rha_mono hq hhi
  rw [rha_mul_self _ q hq] at hlow hhigh
  exact ⟨hlow, hhigh⟩

theorem sext_toWord_weightTerm (luma s : Int) : sext (toWord (weightTerm luma s)) = weightTerm luma s :=
  sext_toWord_sat32 _

/-- A weight product never saturates: at most 46858/65536 of `1 - s` (R137). -/
theorem weightTerm_eq_rha {luma : Int} (hluma : 0 ≤ luma ∧ luma ≤ lumaG) (w : Word) :
    weightTerm luma (sext w) = rha (luma * (65536 - sext w)) 65536 := by
  obtain ⟨hpos, hle⟩ := hluma
  obtain ⟨hlow, hhigh⟩ := sext_bounds w
  unfold lumaG at hle
  obtain ⟨hmin, hmax⟩ := rha_between (p := luma * (65536 - sext w)) (lo := -2 ^ 31) (hi := 2 ^ 31 - 1) (q := 65536)
    (by decide) (by push_cast; nlinarith) (by push_cast; nlinarith)
  exact sat32_of_bounds hmin hmax

/-- The diagonal never saturates: a weight between 0 and 1 puts `w * (1 - s) + s` between `s` and 1 (R137). -/
theorem sat32_weightTerm_add {luma : Int} (hluma : 0 ≤ luma ∧ luma ≤ lumaG) (w : Word) :
    sat32 (weightTerm luma (sext w) + sext w) = rha (luma * (65536 - sext w)) 65536 + sext w := by
  rw [weightTerm_eq_rha hluma]
  obtain ⟨hpos, hle⟩ := hluma
  obtain ⟨hlow, hhigh⟩ := sext_bounds w
  unfold lumaG at hle
  rcases le_total (sext w) 65536 with hs | hs
  · obtain ⟨hmin, hmax⟩ := rha_between (p := luma * (65536 - sext w)) (lo := 0) (hi := 65536 - sext w) (q := 65536)
      (by decide) (by push_cast; nlinarith) (by push_cast; nlinarith)
    exact sat32_of_bounds (by omega) (by omega)
  · obtain ⟨hmin, hmax⟩ := rha_between (p := luma * (65536 - sext w)) (lo := 65536 - sext w) (hi := 0) (q := 65536)
      (by decide) (by push_cast; nlinarith) (by push_cast; nlinarith)
    exact sat32_of_bounds (by omega) (by omega)

/-- The coefficients N_SAT stores, with no saturation left in them (R137). -/
theorem coeff_saturationMatrix (w : Word) (i : Fin 4) (j : Fin 5) :
    coeff (storeMatrix (saturationMatrix (sext w))) i j =
      if i = 3 then (if j = 3 then 65536 else 0)
      else if j = 3 ∨ j = 4 then 0
      else rha (lumaWeight j * (65536 - sext w)) 65536 + if i.val = j.val then sext w else 0 := by
  rw [coeff_storeMatrix, saturationMatrix_coeffIndex]
  split_ifs
  · exact sext_toWord_one
  · exact sext_toWord_zero
  · exact sext_toWord_zero
  · rw [sext_toWord_sat32, sat32_weightTerm_add (lumaWeight_bounds j)]
  · rw [sext_toWord_weightTerm, weightTerm_eq_rha (lumaWeight_bounds j), add_zero]

/-- Settles O19: N_SAT stores the saturation matrix of PARAM0. -/
theorem nSatWritesTheSaturationMatrix : Obligations.NSatWritesTheSaturationMatrix := fun s =>
  ⟨_, exec_algebra (i := .nSat) rfl s, coeff_saturationMatrix s.block.param0⟩

/-- At `s = 1.0` every product is 0 (R137). -/
theorem isIdentity_saturationMatrix_one : IsIdentity (storeMatrix (saturationMatrix (sext 0x00010000))) := by
  unfold IsIdentity
  decide

/-- At `s = 0` every product is a luma weight times 1.0 (R137). -/
theorem coeff_saturationMatrix_zero {i : Fin 4} (j : Fin 5) (hi : i ≠ 3) :
    coeff (storeMatrix (saturationMatrix (sext 0x00000000))) i j = lumaWeight j := by
  decide +revert

/-- Settles O20: both are the matrix N_SAT stores, at the two values of PARAM0. -/
theorem nSatCornerCases : Obligations.NSatCornerCases := by
  intro s
  refine ⟨_, exec_algebra (i := .nSat) rfl s, fun hone => ?_, fun hzero i j hi => ?_⟩
  · simp only [doneWith, commandEffect, hone]
    exact isIdentity_saturationMatrix_one
  · simp only [doneWith, commandEffect, hzero]
    exact coeff_saturationMatrix_zero j hi

/-! ### N_SCALEOFF (R138) -/

/-- The entries of the contrast matrix (R138). -/
theorem scaleOffsetMatrix_coeffIndex (sc ex : Int) (i : Fin 4) (j : Fin 5) :
    (scaleOffsetMatrix sc ex)[coeffIndex i j] =
      if i = 3 then (if j = 3 then 65536 else 0)
      else if j = 4 then translateTerm sc ex
      else if i.val = j.val then sc else 0 := by
  fin_cases i <;> fin_cases j <;> rfl

/-- The coefficients N_SCALEOFF stores: the scale is a word's value and the translate is saturated (R138). -/
theorem coeff_scaleOffsetMatrix (sc ex : Word) (i : Fin 4) (j : Fin 5) :
    coeff (storeMatrix (scaleOffsetMatrix (sext sc) (sext ex))) i j =
      if i = 3 then (if j = 3 then 65536 else 0)
      else if j = 4 then translateTerm (sext sc) (sext ex)
      else if i.val = j.val then sext sc else 0 := by
  rw [coeff_storeMatrix, scaleOffsetMatrix_coeffIndex]
  split_ifs
  · exact sext_toWord_one
  · exact sext_toWord_zero
  · exact sext_toWord_sat32 _
  · rw [toWord_sext]
  · exact sext_toWord_zero

/-- Settles O21: N_SCALEOFF stores the contrast matrix of PARAM0 and PARAM1. -/
theorem nScaleOffWritesTheContrastMatrix : Obligations.NScaleOffWritesTheContrastMatrix := fun s =>
  ⟨_, exec_algebra (i := .nScaleOff) rfl s, coeff_scaleOffsetMatrix s.block.param0 s.block.param1⟩

/-! ### M_COMPOSE (R140, R142) -/

/-- Each coefficient of the product is its exact sum, rounded once and saturated (R140). -/
theorem coeff_composeMatrix (n m : ColorMatrix) (i : Fin 4) (j : Fin 5) :
    coeff (composeMatrix n m) i j = sat32 (rnd16 (composeSum n m i j)) := by
  simp [coeff, composeMatrix]

/-- The exact sum as row times column (R19, R140). -/
theorem composeSum_eq_sum (n m : ColorMatrix) (i : Fin 4) (j : Fin 5) : composeSum n m i j =
    (∑ k : Fin 4, coeff n i k.castSucc * coeff m k j) + if j = 4 then coeff n i 4 * 65536 else 0 := by
  rw [Fin.sum_univ_four]
  rfl

theorem exec_mCompose (s : State) :
    exec .mCompose s = .next (doneWith s { s.block with m := composeMatrix s.block.n s.block.m }) :=
  exec_algebra (i := .mCompose) rfl s

/-- Settles O22: M_COMPOSE stores the product of the old matrices. -/
theorem mComposeMultiplies : Obligations.MComposeMultiplies := fun s =>
  ⟨_, exec_mCompose s, fun i j => by rw [coeff_composeMatrix, composeSum_eq_sum, rnd16]⟩

/-- A sum that is a coefficient times 1.0 gives that coefficient back (R140). -/
theorem coeff_composeMatrix_of_sum {n m : ColorMatrix} {i : Fin 4} {j : Fin 5} {w : Word}
    (h : composeSum n m i j = sext w * 65536) : coeff (composeMatrix n m) i j = sext w := by
  rw [coeff_composeMatrix, h, rnd16_mul_one, sat32_sext]

/-- A row of N that is `c` on the diagonal and 0 in the other channels scales that row of M by `c` and adds its
own offset. -/
theorem composeSum_of_diagonal_row {n : ColorMatrix} (m : ColorMatrix) {i : Fin 4} {c : Int}
    (h : ∀ k : Fin 4, coeff n i k.castSucc = if i = k then c else 0) (j : Fin 5) :
    composeSum n m i j = c * coeff m i j + if j = 4 then coeff n i 4 * 65536 else 0 := by
  simp only [composeSum_eq_sum, h, ite_mul, zero_mul, Finset.sum_ite_eq, Finset.mem_univ, if_true]

/-- A row of N that is a row of the identity copies that row of M. -/
theorem coeff_composeMatrix_of_unit_row {n : ColorMatrix} (m : ColorMatrix) {i : Fin 4}
    (h : ∀ j : Fin 5, coeff n i j = if i.val = j.val then 65536 else 0) (j : Fin 5) :
    coeff (composeMatrix n m) i j = coeff m i j := by
  have hdiagonal (k : Fin 4) : coeff n i k.castSucc = if i = k then 65536 else 0 := by
    simp only [h, Fin.val_castSucc, Fin.ext_iff]
  have hoffset : coeff n i 4 = 0 := (h 4).trans (if_neg i.isLt.ne)
  apply coeff_composeMatrix_of_sum
  rw [composeSum_of_diagonal_row m hdiagonal, hoffset, zero_mul, ite_self, add_zero, mul_comm]
  rfl

/-- Composing the identity onto M keeps M (R140). -/
theorem composeMatrix_identity_left {n : ColorMatrix} (m : ColorMatrix) (h : IsIdentity n) : composeMatrix n m = m :=
  colorMatrix_ext fun i j => coeff_composeMatrix_of_unit_row m (h i) j

/-- Composing N onto the identity gives N: a column of the identity picks the entry of N, and the offset column is N's
own offset (R140, R142). -/
theorem composeMatrix_identity_right (n : ColorMatrix) {m : ColorMatrix} (h : IsIdentity m) :
    composeMatrix n m = n := by
  refine colorMatrix_ext fun i j => coeff_composeMatrix_of_sum ?_
  change composeSum n m i j = coeff n i j * 65536
  simp only [composeSum, h _ j]
  fin_cases j <;> simp

/-- Settles O23: the product with the identity is the other matrix, whichever side it stands on. -/
theorem composingWithTheIdentity : Obligations.ComposingWithTheIdentity := by
  refine fun s => ⟨fun hn => ?_, fun hm => ?_⟩
  · rw [exec_mCompose, composeMatrix_identity_left _ hn]
  · rw [exec_mCompose, composeMatrix_identity_right _ hm]

/-! ### The alpha row (R144) -/

/-- The fixed alpha row is the last row of the identity. -/
theorem AlphaRowFixed.unit_row {m : ColorMatrix} (h : AlphaRowFixed m) (j : Fin 5) :
    coeff m 3 j = if (3 : Fin 4).val = j.val then 65536 else 0 := by
  rw [h j]
  congr 1
  simp [Fin.ext_iff, eq_comm]

theorem alphaRowFixed_identityMatrix : AlphaRowFixed (storeMatrix identityMatrix) := by
  unfold AlphaRowFixed
  decide

/-- Under the fixed alpha row of N the alpha row of M stays what it is. -/
theorem AlphaRowFixed.compose {n m : ColorMatrix} (hn : AlphaRowFixed n) (hm : AlphaRowFixed m) :
    AlphaRowFixed (composeMatrix n m) := fun j =>
  (coeff_composeMatrix_of_unit_row m hn.unit_row j).trans (hm j)

/-- Settles O24: the three generated matrices have the row, and `AlphaRowFixed.compose` keeps it. -/
theorem algebraKeepsTheAlphaRow : Obligations.AlgebraKeepsTheAlphaRow := fun s =>
  ⟨_, _, _, _, exec_algebra (i := .mIdent) rfl s, exec_algebra (i := .nSat) rfl s,
    exec_algebra (i := .nScaleOff) rfl s, exec_mCompose s, alphaRowFixed_identityMatrix,
    fun j => coeff_saturationMatrix s.block.param0 3 j,
    fun j => coeff_scaleOffsetMatrix s.block.param0 s.block.param1 3 j, fun hm hn => hn.compose hm⟩

/-! ### Saturation and contrast commute (R143) -/

/-- The colour rows of a saturation matrix: no alpha and offset terms, and weights that sum to 1.0. -/
def ColourRowsSumToOne (m : ColorMatrix) : Prop :=
  ∀ i : Fin 4, i ≠ 3 → coeff m i 3 = 0 ∧ coeff m i 4 = 0 ∧ coeff m i 0 + coeff m i 1 + coeff m i 2 = 65536

/-- The colour rows of a contrast matrix: `c` on the diagonal and `t` in the offset column. -/
def ColourRowsScale (m : ColorMatrix) (c t : Int) : Prop :=
  ∀ i : Fin 4, i ≠ 3 → ∀ j : Fin 5, coeff m i j = if j = 4 then t else if i.val = j.val then c else 0

/-- A contrast matrix on the left scales the colour rows of S by `c` and adds the offset `t`. -/
theorem composeSum_contrast_left {C : ColorMatrix} {c t : Int} (S : ColorMatrix) (hC : ColourRowsScale C c t)
    {i : Fin 4} (hi : i ≠ 3) (j : Fin 5) :
    composeSum C S i j = c * coeff S i j + if j = 4 then t * 65536 else 0 := by
  have hdiagonal (k : Fin 4) : coeff C i k.castSucc = if i = k then c else 0 := by
    have hcolumn : k.castSucc ≠ 4 := (Fin.castSucc_lt_last k).ne
    rw [hC i hi, if_neg hcolumn]
    simp only [Fin.val_castSucc, Fin.ext_iff]
  rw [composeSum_of_diagonal_row S hdiagonal, hC i hi 4, if_pos rfl]

/-- On the right it does the same: S averages three equal offsets with weights that sum to 1.0. -/
theorem composeSum_contrast_right {S C : ColorMatrix} {c t : Int} (hS : ColourRowsSumToOne S)
    (hC : ColourRowsScale C c t) {i : Fin 4} (hi : i ≠ 3) (j : Fin 5) :
    composeSum S C i j = c * coeff S i j + if j = 4 then t * 65536 else 0 := by
  obtain ⟨halpha, hoffset, hsum⟩ := hS i hi
  simp only [composeSum, hC 0 (by decide), hC 1 (by decide), hC 2 (by decide), halpha, hoffset]
  match j with
  | 0 | 1 | 2 | 3 => simp [halpha, mul_comm]
  | 4 =>
    change coeff S i 0 * t + coeff S i 1 * t + coeff S i 2 * t + 0 * coeff C 3 4 + 0 * 65536 =
      c * coeff S i 4 + t * 65536
    linear_combination t * hsum - c * hoffset

/-- The exact sums agree in the colour rows, and the alpha row is the fixed one in both orders. -/
theorem composeMatrix_comm {S C : ColorMatrix} {c t : Int} (hSA : AlphaRowFixed S) (hCA : AlphaRowFixed C)
    (hS : ColourRowsSumToOne S) (hC : ColourRowsScale C c t) : composeMatrix S C = composeMatrix C S := by
  refine colorMatrix_ext fun i j => ?_
  by_cases hi : i = 3
  · rw [hi, hSA.compose hCA j, hCA.compose hSA j]
  · rw [coeff_composeMatrix, coeff_composeMatrix, composeSum_contrast_right hS hC hi, composeSum_contrast_left S hC hi]

/-- Doubling the contrast and shifting them by 1.0 do not commute: the shift is doubled in one order only. -/
theorem composeMatrix_not_comm :
    let double := storeMatrix (scaleOffsetMatrix 131072 0)
    let shift := storeMatrix (scaleOffsetMatrix 65536 65536)
    composeMatrix double shift ≠ composeMatrix shift double := by
  decide

/-- Settles O25: `composeMatrix_comm`, and `composeMatrix_not_comm` from reset. -/
theorem saturationAndContrastCommute : Obligations.SaturationAndContrastCommute :=
  ⟨fun _ _ _ _ _ hSA hCA hS hC => ⟨_, _, exec_mCompose _, exec_mCompose _, composeMatrix_comm hSA hCA hS hC⟩,
    State.reset, _, _, _, _, exec_mCompose _, exec_mCompose _, composeMatrix_not_comm⟩

end Sys2Proof.Machine

/-! PROOFS. The statements of 42_matrix_apply.md: what MAT_APPLY makes of every pixel (R160 to R163, R165), the order of
rounding and clamping (R164), the Grayscale sequence (R166), and the widths of the exact sums (R167, R183, R199). -/

namespace Sys2Proof.Machine

/-! ### Rounding and clamping (R164) -/

/-- Settles O28: rounding is monotone and keeps the integers 0 and 255, so it passes through both limits. -/
theorem clampThenRoundIsRoundThenClamp : Obligations.ClampThenRoundIsRoundThenClamp := by
  intro p q hq
  have hmono : Monotone fun n => rha n q := fun _ _ hle => rha_mono hq hle
  have hlow : rha 0 q = 0 := by simpa using rha_mul_self 0 q hq
  have hhigh : rha (255 * q) q = 255 := mul_comm (q : Int) 255 ▸ rha_mul_self 255 q hq
  calc rha (min (255 * q) (max 0 p)) q
      = min (rha (255 * q) q) (rha (max 0 p) q) := hmono.map_min
    _ = min (rha (255 * q) q) (max (rha 0 q) (rha p q)) := congrArg _ hmono.map_max
    _ = clamp (rha p q) 0 255 := by rw [hlow, hhigh, clamp]

/-! ### The exact sums (R161, R167, R183, R199) -/

/-- The accumulator of a row as row times channels plus the offset (R161). -/
theorem matrixAcc_eq_sum (m : ColorMatrix) (p : Pixel) (i : Fin 4) :
    matrixAcc m p i = (∑ k : Fin 4, coeff m i k.castSucc * (chanAt p k).toNat) + coeff m i 4 := by
  rw [Fin.sum_univ_four]
  rfl

/-- The convolution sum as the offset plus the taps of the three rows (R175, R176). -/
theorem convAcc_eq_sum (k : ConvKernel) (off : Int) (f : Int → Int → Nat) :
    convAcc k off f = off + ∑ dy : Fin 3, ∑ dx : Fin 3,
      kernelCoeff k ⟨3 * dy.val + dx.val, by omega⟩ * f ((dx.val : Int) - 1) ((dy.val : Int) - 1) := by
  simp only [Fin.sum_univ_three, ← add_assoc]
  simp [convAcc, ← add_assoc]

/-- `n` products of a 32-bit coefficient and a channel value are at most `n * 2^31 * 255` together. -/
theorem abs_sum_sext_mul_le {ι : Type} [Fintype ι] (w : ι → Word) {f : ι → Nat} (hf : ∀ t, f t ≤ 255) :
    |∑ t, sext (w t) * f t| ≤ Fintype.card ι * (2 ^ 31 * 255) := by
  have hterm (t : ι) : |sext (w t) * f t| ≤ 2 ^ 31 * 255 := by
    obtain ⟨hlow, hhigh⟩ := sext_bounds (w t)
    have hword : |sext (w t)| ≤ 2 ^ 31 := abs_le.mpr ⟨hlow, by omega⟩
    rw [abs_mul, Nat.abs_cast]
    exact mul_le_mul hword (by exact_mod_cast hf t) (by positivity) (by positivity)
  calc |∑ t, sext (w t) * f t| ≤ ∑ t, |sext (w t) * f t| := Finset.abs_sum_le_sum_abs _ _
    _ ≤ ∑ _t : ι, 2 ^ 31 * 255 := Finset.sum_le_sum fun t _ => hterm t
    _ = Fintype.card ι * (2 ^ 31 * 255) := by simp

/-- Four products and an offset (R167). -/
theorem abs_matrixAcc_lt (m : ColorMatrix) (p : Pixel) (i : Fin 4) : |matrixAcc m p i| < 2 ^ 42 := by
  have hchannel (k : Fin 4) : (chanAt p k).toNat ≤ 255 := Nat.le_of_lt_succ (chanAt p k).isLt
  have hsum : |∑ k : Fin 4, coeff m i k.castSucc * (chanAt p k).toNat| ≤ 4 * (2 ^ 31 * 255) :=
    abs_sum_sext_mul_le (fun k : Fin 4 => m[coeffIndex i k.castSucc]) hchannel
  obtain ⟨hlow, hhigh⟩ : -2 ^ 31 ≤ coeff m i 4 ∧ coeff m i 4 ≤ 2 ^ 31 - 1 := sext_bounds _
  rw [abs_le] at hsum
  rw [matrixAcc_eq_sum, abs_lt]
  omega

/-- Nine products and an offset (R183). -/
theorem abs_convAcc_lt (k : ConvKernel) (off : Word) {f : Int → Int → Nat} (hf : ∀ dx dy, f dx dy ≤ 255) :
    |convAcc k (sext off) f| < 2 ^ 43 := by
  have hsum : |∑ d : Fin 3 × Fin 3, kernelCoeff k ⟨3 * d.1.val + d.2.val, by omega⟩ *
      f ((d.2.val : Int) - 1) ((d.1.val : Int) - 1)| ≤ 9 * (2 ^ 31 * 255) :=
    abs_sum_sext_mul_le (fun d : Fin 3 × Fin 3 => k[3 * d.1.val + d.2.val]) fun d => hf _ _
  obtain ⟨hlow, hhigh⟩ := sext_bounds off
  simp only [Fintype.sum_prod_type, abs_le] at hsum
  rw [convAcc_eq_sum, abs_lt]
  omega

/-- A window holds `2r + 1` samples (R192). -/
theorem windowSum_le (r : Nat) {f : Int → Nat} (hf : ∀ d, f d ≤ 255) : windowSum r f ≤ (2 * r + 1) * 255 := by
  have hsum := List.sum_le_card_nsmul ((List.range (2 * r + 1)).map fun i : Nat => f ((i : Int) - (r : Int))) 255
    fun v hv => by
      obtain ⟨i, -, rfl⟩ := List.mem_map.mp hv
      exact hf _
  rwa [List.length_map, List.length_range, smul_eq_mul] at hsum

/-- The mean of a window is a channel value again, with no clamp (R192, R199). -/
theorem windowMean_le (r : Nat) {f : Int → Nat} (hf : ∀ d, f d ≤ 255) : windowMean r f ≤ 255 :=
  Nat.div_le_of_le_mul (windowSum_le r hf)

theorem blurRadius_le (b : Block) : blurRadius b ≤ 10 := by
  have hclamp := (clamp_bounds (lo := 1) (hi := 10) (by decide) (sext b.radius)).2
  unfold blurRadius
  omega

/-- Settles O30: a bound for each sum, the window's at the largest radius 10. -/
theorem accumulatorsFitTheirWidths : Obligations.AccumulatorsFitTheirWidths := by
  refine ⟨abs_matrixAcc_lt, fun k off f hf => abs_convAcc_lt k off hf, fun b f hf => ⟨?_, windowMean_le _ hf⟩⟩
  calc windowSum (blurRadius b) f ≤ (2 * blurRadius b + 1) * 255 := windowSum_le _ hf
    _ ≤ 5355 := by have := blurRadius_le b; omega

/-! ### A pixel of an output image (R75, R81) -/

theorem inImage_iff {b : Block} {x y : Nat} : InImage b x y ↔ x < imageWidth b ∧ y < imageHeight b := by
  simp only [InImage, imageWidth, imageHeight, sext]
  omega

/-- A command's effect on the coefficient registers is confined to M and N (R32). -/
theorem commandEffect_eq (i : Instr) (b : Block) :
    commandEffect i b = { b with m := (commandEffect i b).m, n := (commandEffect i b).n } := by
  cases i <;> simp only [commandEffect]

/-- A command changes no register but M, N and STATUS (R32, R127). -/
theorem exec_block_eq {i : Instr} {s t : State} (h : exec i s = .next t) : t.config = s.config ∧
    ∃ m n status, t.block = { s.block with engine := .idle, status := status, m := m, n := n } := by
  rw [exec_eq, commandEffect_eq] at h
  cases h
  exact ⟨rfl, _, _, _, rfl⟩

/-- So an image that is ready stays ready (R122). -/
theorem ImageReady.after_exec {i : Instr} {s t : State} (hready : ImageReady s) (h : exec i s = .next t) :
    ImageReady t := by
  obtain ⟨config, block, _, _, _, _, _⟩ := t
  obtain ⟨rfl, m, n, status, rfl⟩ := exec_block_eq h
  exact { hready with }

/-- A pixel that is among the writes of a command is the pixel of the image after it (R81). -/
theorem pixelOfImage_exec {i : Instr} {s t : State} {base : Word} {x y : Nat} {p : Pixel}
    (hp : (pixelAddr base (imageWidth s.block) x y, pack p) ∈ commandWrites i s) (h : exec i s = .next t) :
    pixelOfImage t base x y = p := by
  have hword : Memory.readWord t.mem (pixelAddr base (imageWidth s.block) x y) = pack p := readWord_exec hp h
  obtain ⟨-, _, _, _, hblock⟩ := exec_block_eq h
  rw [pixelOfImage, hblock]
  exact (congrArg px hword).trans (px_pack p)

/-! ### MAT_APPLY (R160 to R162) -/

/-- MAT_APPLY has no intermediate region to check. -/
theorem ImageReady.commandReady_matApply {s : State} (h : ImageReady s) : CommandReady .matApply s := ⟨h, nofun⟩

/-- The writes of MAT_APPLY when its checks pass (R160). -/
theorem commandWrites_matApply {s : State} (h : ImageReady s) :
    commandWrites .matApply s = matApplyWrites s.block s.mem :=
  if_pos (commandCheck_eq_none.mpr h.commandReady_matApply)

/-- Every destination pixel is its source pixel transformed by M (R160, R168). -/
theorem pixelOfImage_matApply {s t : State} (hready : ImageReady s) (h : exec .matApply s = .next t) {x y : Nat}
    (hxy : InImage s.block x y) : pixelOfImage t s.block.dstBase x y =
      matrixPixel s.block.m (pixelOfImage s s.block.srcBase x y) := by
  obtain ⟨hx, hy⟩ := inImage_iff.mp hxy
  refine pixelOfImage_exec ?_ h
  rw [commandWrites_matApply hready]
  exact mem_imageWrites.mpr ⟨x, y, hx, hy, rfl⟩

/-- Each channel of a transformed pixel is its own row's sum, converted (R162). -/
theorem chanAt_matrixPixel (m : ColorMatrix) (p : Pixel) (i : Fin 4) :
    chanAt (matrixPixel m p) i = out8 (matrixAcc m p i) := by
  fin_cases i <;> rfl

/-- Settles O31: `pixelOfImage_matApply` channel by channel, and the command's writes stay inside DST. -/
theorem matApplyTransformsEveryPixel : Obligations.MatApplyTransformsEveryPixel := by
  intro s hready
  have hexec := exec_ready hready.commandReady_matApply
  refine ⟨_, hexec, rfl, fun a ha => readByte_commandWrites_outside s.mem ha, fun x y hxy i => ?_⟩
  rw [pixelOfImage_matApply hready hexec hxy, chanAt_matrixPixel, out8_toNat, clamp8, matrixAcc_eq_sum]

/-! ### Rows of the identity (R163, R165) -/

/-- A row of the identity copies its channel: the accumulator is 1.0 times that channel (R163, R165). -/
theorem chanAt_matrixPixel_of_unit_row {m : ColorMatrix} {i : Fin 4} (p : Pixel)
    (h : ∀ j : Fin 5, coeff m i j = if i.val = j.val then 65536 else 0) :
    chanAt (matrixPixel m p) i = chanAt p i := by
  have hdiagonal (k : Fin 4) : coeff m i k.castSucc = if i = k then 65536 else 0 := by
    simp only [h, Fin.val_castSucc, Fin.ext_iff]
  have hoffset : coeff m i 4 = 0 := (h 4).trans (if_neg i.isLt.ne)
  have hacc : matrixAcc m p i = 65536 * (chanAt p i).toNat := by
    simp only [matrixAcc_eq_sum, hdiagonal, hoffset, ite_mul, zero_mul, Finset.sum_ite_eq, Finset.mem_univ, if_true,
      add_zero]
  rw [chanAt_matrixPixel, hacc, out8_channel]

/-- A pixel is its four channels. -/
theorem pixel_ext {p p' : Pixel} (h : ∀ i, chanAt p i = chanAt p' i) : p = p' := by
  cases p
  cases p'
  rw [Pixel.mk.injEq]
  exact ⟨h 0, h 1, h 2, h 3⟩

/-- Settles O32: every row of M copies its channel. -/
theorem matApplyWithIdentityCopies : Obligations.MatApplyWithIdentityCopies := by
  intro s hready hidentity
  have hexec := exec_ready hready.commandReady_matApply
  refine ⟨_, hexec, fun x y hxy => ?_⟩
  rw [pixelOfImage_matApply hready hexec hxy]
  exact pixel_ext fun i => chanAt_matrixPixel_of_unit_row _ (hidentity i)

/-- Under the fixed alpha row a transformed pixel keeps its alpha (R163). -/
theorem AlphaRowFixed.matrixPixel_a {m : ColorMatrix} (h : AlphaRowFixed m) (p : Pixel) :
    (matrixPixel m p).a = p.a :=
  chanAt_matrixPixel_of_unit_row (i := 3) p h.unit_row

/-- Settles O33: the alpha row of M copies alpha. -/
theorem matApplyKeepsAlpha : Obligations.MatApplyKeepsAlpha := by
  intro s hready halpha
  have hexec := exec_ready hready.commandReady_matApply
  refine ⟨_, hexec, fun x y hxy => ?_⟩
  rw [pixelOfImage_matApply hready hexec hxy, halpha.matrixPixel_a]

/-! ### The Grayscale sequence (R166) -/

theorem isIdentity_identityMatrix : IsIdentity (storeMatrix identityMatrix) := by
  unfold IsIdentity
  decide

/-- M_IDENT, N_SAT and M_COMPOSE make both M and N the saturation matrix of PARAM0 (R142). -/
theorem exec_saturationSequence (s : State) :
    let saturation := storeMatrix (saturationMatrix (sext s.block.param0))
    ∃ s1 s2, exec .mIdent s = .next s1 ∧ exec .nSat s1 = .next s2 ∧
      exec .mCompose s2 = .next (doneWith s { s.block with m := saturation, n := saturation }) := by
  refine ⟨_, _, exec_algebra (i := .mIdent) rfl s, exec_algebra (i := .nSat) rfl _, ?_⟩
  rw [exec_mCompose]
  simp only [doneWith, commandEffect, composeMatrix_identity_right _ isIdentity_identityMatrix]

/-- Two equal rows of M give two equal channels (R161). -/
theorem matrixAcc_of_rows_eq {m : ColorMatrix} {i i' : Fin 4} (p : Pixel) (h : ∀ j, coeff m i j = coeff m i' j) :
    matrixAcc m p i = matrixAcc m p i' := by
  simp only [matrixAcc, h]

/-- The three colour rows at `s = 0` are the luma weights, so a pixel turns gray (R137, R166). -/
theorem matrixPixel_saturation_zero (p : Pixel) :
    let gray := matrixPixel (storeMatrix (saturationMatrix (sext 0))) p
    gray.r = gray.g ∧ gray.g = gray.b ∧ gray.a = p.a := by
  have hrows {i i' : Fin 4} (hi : i ≠ 3) (hi' : i' ≠ 3) :
      matrixAcc (storeMatrix (saturationMatrix (sext 0))) p i =
        matrixAcc (storeMatrix (saturationMatrix (sext 0))) p i' :=
    matrixAcc_of_rows_eq p fun j =>
      (coeff_saturationMatrix_zero j hi).trans (coeff_saturationMatrix_zero j hi').symm
  have halpha : AlphaRowFixed (storeMatrix (saturationMatrix (sext 0))) := fun j => coeff_saturationMatrix 0 3 j
  exact ⟨congrArg out8 (hrows (by decide) (by decide)), congrArg out8 (hrows (by decide) (by decide)),
    halpha.matrixPixel_a p⟩

/-- Settles O34: the sequence leaves M the saturation matrix of 0, and the image ready for MAT_APPLY. -/
theorem grayscaleMakesChannelsEqual : Obligations.GrayscaleMakesChannelsEqual := by
  intro s hready hzero
  obtain ⟨s1, s2, hident, hsat, hcompose⟩ := exec_saturationSequence s
  rw [hzero] at hcompose
  have hready3 := ((hready.after_exec hident).after_exec hsat).after_exec hcompose
  have hexec := exec_ready hready3.commandReady_matApply
  refine ⟨s1, s2, _, _, hident, hsat, hcompose, hexec, fun x y hxy => ?_⟩
  have hpixel := pixelOfImage_matApply hready3 hexec (x := x) (y := y) hxy
  obtain ⟨hrg, hgb, ha⟩ := matrixPixel_saturation_zero (pixelOfImage s s.block.srcBase x y)
  exact ⟨hpixel ▸ hrg, hpixel ▸ hgb, hpixel ▸ ha⟩

end Sys2Proof.Machine

/-! PROOFS. The statements of 43_convolution.md: what CONV_APPLY makes of every pixel (R175 to R181) and of a uniform
channel (R182). -/

namespace Sys2Proof.Machine

/-! ### Clamp-to-edge sampling (R178) -/

/-- The rule's edge clamp is the model's clamped index, for a row or column that is not of negative length. -/
theorem edgeClamp_eq_clampIndex (i : Int) {n : Int} (hn : 0 ≤ n) : edgeClamp i n = clampIndex i n.toNat := by
  rw [edgeClamp, clampIndex, Int.toNat_of_nonneg hn]

/-- A sample is the pixel of the image at the clamped position. -/
theorem sampleClamped_eq_pixelOfImage {s : State} (h : ImageReady s) (base : Word) (x y : Int) :
    sampleClamped s.mem base (imageWidth s.block) (imageHeight s.block) x y =
      pixelOfImage s base (edgeClamp x s.block.width.toInt) (edgeClamp y s.block.height.toInt) := by
  rw [edgeClamp_eq_clampIndex x h.width.le, edgeClamp_eq_clampIndex y h.height.le]
  rfl

/-- A clamped position is a pixel of the image, so no sample lies outside SRC. -/
theorem inImage_edgeClamp {s : State} (h : ImageReady s) (x y : Int) :
    InImage s.block (edgeClamp x s.block.width.toInt) (edgeClamp y s.block.height.toInt) := by
  rw [inImage_iff, edgeClamp_eq_clampIndex x h.width.le, edgeClamp_eq_clampIndex y h.height.le]
  exact ⟨clampIndex_lt x (imageWidth_pos h), clampIndex_lt y (imageHeight_pos h)⟩

/-! ### CONV_APPLY (R175 to R181) -/

/-- A colour channel of a pixel is the byte it was made from. -/
@[simp] theorem channel_pixelOf (f : Channel → Byte) (a : Byte) (c : Channel) :
    channel c (pixelOf f a) = (f c).toNat := by
  cases c <;> rfl

/-- CONV_APPLY has no intermediate region to check. -/
theorem ImageReady.commandReady_convApply {s : State} (h : ImageReady s) : CommandReady .convApply s := ⟨h, nofun⟩

/-- The writes of CONV_APPLY when its checks pass (R175). -/
theorem commandWrites_convApply {s : State} (h : ImageReady s) :
    commandWrites .convApply s = convApplyWrites s.block s.mem :=
  if_pos (commandCheck_eq_none.mpr h.commandReady_convApply)

/-- Every destination pixel is the convolution pixel at its place (R175). -/
theorem pixelOfImage_convApply {s t : State} (hready : ImageReady s) (h : exec .convApply s = .next t) {x y : Nat}
    (hxy : InImage s.block x y) : pixelOfImage t s.block.dstBase x y = convPixel s.block s.mem x y := by
  obtain ⟨hx, hy⟩ := inImage_iff.mp hxy
  refine pixelOfImage_exec ?_ h
  rw [commandWrites_convApply hready]
  exact mem_imageWrites.mpr ⟨x, y, hx, hy, rfl⟩

/-- A colour channel of a convolution pixel is the offset plus the nine weighted samples of that channel, rounded and
clamped (R176 to R181). -/
theorem channel_convPixel {s : State} (h : ImageReady s) (c : Channel) (x y : Nat) :
    (channel c (convPixel s.block s.mem x y) : Int) =
      clamp (rha (s.block.convOffset.toInt + ∑ dy : Fin 3, ∑ dx : Fin 3,
        kernelCoeff s.block.k ⟨3 * dy.val + dx.val, by omega⟩ *
          channel c (pixelOfImage s s.block.srcBase
            (edgeClamp ((x : Int) + dx.val - 1) s.block.width.toInt)
            (edgeClamp ((y : Int) + dy.val - 1) s.block.height.toInt))) 65536) 0 255 := by
  simp only [convPixel, channel_pixelOf, out8_toNat, clamp8, convAcc_eq_sum, sampleClamped_eq_pixelOfImage h,
    ← add_sub_assoc, sext]

/-- Settles O35: `pixelOfImage_convApply` channel by channel, and the command's writes stay inside DST. -/
theorem convApplyCorrelatesEveryPixel : Obligations.ConvApplyCorrelatesEveryPixel := by
  intro s hready
  have hexec := exec_ready hready.commandReady_convApply
  refine ⟨_, hexec, rfl, fun a ha => readByte_commandWrites_outside s.mem ha, fun x y hxy => ?_⟩
  rw [pixelOfImage_convApply hready hexec hxy]
  exact ⟨rfl, fun c => channel_convPixel hready c x y⟩

/-! ### Uniform samples (R182) -/

/-- The three rows of the kernel are its nine coefficients (R176). -/
theorem sum_kernel_rows (f : Fin 9 → Int) :
    ∑ dy : Fin 3, ∑ dx : Fin 3, f ⟨3 * dy.val + dx.val, by omega⟩ = ∑ i : Fin 9, f i := by
  simp only [Fin.sum_univ_three, Fin.sum_univ_castSucc (n := 8), Fin.sum_univ_eight, ← add_assoc]
  rfl

/-- Settles O36: a uniform channel has nine equal samples at every pixel, and equal samples factor out of the sum. -/
theorem convApplyOnUniformImage : Obligations.ConvApplyOnUniformImage := by
  intro s c v hready
  obtain ⟨t, hexec, -, -, hpixel⟩ := convApplyCorrelatesEveryPixel s hready
  refine ⟨t, hexec, fun x y hxy huniform => ?_⟩
  have hsamples (dx dy : Fin 3) : channel c (pixelOfImage s s.block.srcBase
      (edgeClamp ((x : Int) + dx.val - 1) s.block.width.toInt)
      (edgeClamp ((y : Int) + dy.val - 1) s.block.height.toInt)) = v := by
    rcases huniform with himage | hnine
    · exact himage _ _ (inImage_edgeClamp hready _ _)
    · exact hnine dx dy
  rw [(hpixel x y hxy).2 c]
  simp only [hsamples, ← Finset.sum_mul]
  rw [sum_kernel_rows (kernelCoeff s.block.k), mul_comm, add_comm]

end Sys2Proof.Machine

/-! PROOFS. The statements of 44_box_blur.md: what BLUR_APPLY makes of every pixel in its two passes (R190 to R196), of
a uniform channel (R197), and of a RADIUS outside 1 to 10 (R191). -/

namespace Sys2Proof.Machine

/-! ### The window (R192) -/

/-- The mean over the window as the sum of its `2r + 1` samples, left to right, and a truncating division. -/
theorem windowMean_eq_sum (r : Nat) (f : Int → Nat) :
    windowMean r f = (∑ d ∈ Finset.range (2 * r + 1), f ((d : Int) - r)) / (2 * r + 1) := rfl

/-- Equal samples are their own mean, at every radius (R197). -/
theorem mean_of_equal_samples (r : Nat) {v : Nat} {f : Nat → Nat} (h : ∀ d, f d = v) :
    (∑ d ∈ Finset.range (2 * r + 1), f d) / (2 * r + 1) = v := by
  simp only [h, Finset.sum_const, Finset.card_range, smul_eq_mul]
  exact Nat.mul_div_cancel_left v (Nat.succ_pos _)

/-! ### The two passes (R190 to R196) -/

theorem channel_le (c : Channel) (p : Pixel) : channel c p ≤ 255 := by
  cases c <;> exact Nat.le_of_lt_succ (BitVec.isLt _)

theorem blurHorizontal_le (b : Block) (mem : Memory) (c : Channel) (x y : Nat) : blurHorizontal b mem c x y ≤ 255 :=
  windowMean_le _ fun _ => channel_le c _

theorem blurVertical_le (b : Block) (mem : Memory) (c : Channel) (x y : Nat) : blurVertical b mem c x y ≤ 255 :=
  windowMean_le _ fun _ => blurHorizontal_le b mem c x _

/-- A value of at most 255 is kept by the byte it is stored in (R199). -/
theorem channel_pixelOf_of_le {f : Channel → Nat} {c : Channel} (h : f c ≤ 255) (a : Byte) :
    channel c (pixelOf (fun c => BitVec.ofNat 8 (f c)) a) = f c := by
  rw [channel_pixelOf, BitVec.toNat_ofNat]
  exact Nat.mod_eq_of_lt (Nat.lt_succ_of_le h)

/-- No bit of a horizontal mean is lost in its TMP byte (R193, R199). -/
@[simp] theorem channel_blurTmpPixel (b : Block) (mem : Memory) (c : Channel) (x y : Nat) :
    channel c (blurTmpPixel b mem x y) = blurHorizontal b mem c x y :=
  channel_pixelOf_of_le (blurHorizontal_le b mem c x y) 255

/-- No bit of a vertical mean is lost in its DST byte (R194, R199). -/
@[simp] theorem channel_blurDstPixel (b : Block) (mem : Memory) (c : Channel) (x y : Nat) :
    channel c (blurDstPixel b mem x y) = blurVertical b mem c x y :=
  channel_pixelOf_of_le (blurVertical_le b mem c x y) 255

/-- An index inside its row or column is its own edge clamp. -/
theorem edgeClamp_of_lt {i : Nat} {n : Int} (h : (i : Int) < n) : edgeClamp i n = i := by
  rw [edgeClamp_eq_clampIndex i (by omega)]
  exact clampIndex_of_lt (by omega)

/-- The horizontal pass averages the SRC pixels of its own row (R192). -/
theorem blurHorizontal_eq_sum {s : State} (hready : ImageReady s) (c : Channel) {x y : Nat}
    (hxy : InImage s.block x y) : blurHorizontal s.block s.mem c x y =
      (∑ d ∈ Finset.range (2 * blurRadius s.block + 1), channel c (pixelOfImage s s.block.srcBase
        (edgeClamp ((x : Int) + d - blurRadius s.block) s.block.width.toInt) y)) / (2 * blurRadius s.block + 1) := by
  simp only [blurHorizontal, windowMean_eq_sum, sampleClamped_eq_pixelOfImage hready, edgeClamp_of_lt hxy.2,
    ← add_sub_assoc]

/-- The vertical pass averages the values of the horizontal pass in its own column (R194). -/
theorem blurVertical_eq_sum {s : State} (hready : ImageReady s) (c : Channel) (x y : Nat) :
    blurVertical s.block s.mem c x y =
      (∑ d ∈ Finset.range (2 * blurRadius s.block + 1), blurHorizontal s.block s.mem c x
        (edgeClamp ((y : Int) + d - blurRadius s.block) s.block.height.toInt)) / (2 * blurRadius s.block + 1) := by
  simp only [blurVertical, windowMean_eq_sum, edgeClamp_eq_clampIndex _ hready.height.le, ← add_sub_assoc]
  rfl

/-! ### BLUR_APPLY (R190, R195) -/

/-- BLUR_APPLY checks its intermediate region too (R125). -/
theorem ImageReady.commandReady_blurApply {s : State} (h : ImageReady s) (htmp : TmpReady s) :
    CommandReady .blurApply s := ⟨h, fun _ => htmp⟩

/-- The writes of BLUR_APPLY when its checks pass (R190). -/
theorem commandWrites_blurApply {s : State} (h : CommandReady .blurApply s) :
    commandWrites .blurApply s = blurApplyWrites s.block s.mem :=
  if_pos (commandCheck_eq_none.mpr h)

/-- Every TMP pixel is the horizontal pass's pixel at its place, every DST pixel the vertical pass's (R190). -/
theorem pixelOfImage_blurApply {s t : State} (hready : CommandReady .blurApply s) (h : exec .blurApply s = .next t)
    {x y : Nat} (hxy : InImage s.block x y) :
    pixelOfImage t s.block.tmpBase x y = blurTmpPixel s.block s.mem x y ∧
      pixelOfImage t s.block.dstBase x y = blurDstPixel s.block s.mem x y := by
  obtain ⟨hx, hy⟩ := inImage_iff.mp hxy
  refine ⟨pixelOfImage_exec ?_ h, pixelOfImage_exec ?_ h⟩ <;> rw [commandWrites_blurApply hready]
  · exact List.mem_append_left _ (mem_imageWrites.mpr ⟨x, y, hx, hy, rfl⟩)
  · exact List.mem_append_right _ (mem_imageWrites.mpr ⟨x, y, hx, hy, rfl⟩)

/-- Settles O37: each pass as its sum. The samples of the vertical pass are TMP pixels because the edge clamp keeps them
in the image. -/
theorem blurApplyAveragesInTwoPasses : Obligations.BlurApplyAveragesInTwoPasses := by
  intro s himage htmp
  have hready := himage.commandReady_blurApply htmp
  have hexec := exec_ready hready
  refine ⟨_, hexec, rfl, fun a ha => readByte_commandWrites_outside s.mem ha, fun x y hxy => ?_⟩
  have hcolumn (i : Int) : InImage s.block x (edgeClamp i s.block.height.toInt) :=
    ⟨hxy.1, (inImage_edgeClamp himage 0 i).2⟩
  obtain ⟨hpixelTmp, hpixelDst⟩ := pixelOfImage_blurApply hready hexec hxy
  simp only [hpixelTmp, hpixelDst, pixelOfImage_blurApply hready hexec (hcolumn _), channel_blurTmpPixel,
    channel_blurDstPixel]
  exact ⟨rfl, rfl, fun c => ⟨blurHorizontal_eq_sum himage c hxy, blurVertical_eq_sum himage c x y⟩⟩

/-! ### A uniform channel (R197) -/

/-- Settles O38: equal samples along x make TMP uniform, and then the samples along y are equal. -/
theorem blurKeepsUniformColour : Obligations.BlurKeepsUniformColour := by
  intro s c v himage htmp huniform
  obtain ⟨t, hexec, -, -, hpixel⟩ := blurApplyAveragesInTwoPasses s himage htmp
  have htmpUniform (x y : Nat) (hxy : InImage s.block x y) :
      channel c (pixelOfImage t s.block.tmpBase x y) = v := by
    obtain ⟨-, -, hmean⟩ := hpixel x y hxy
    exact (hmean c).1.trans (mean_of_equal_samples _ fun d =>
      huniform _ _ ⟨(inImage_edgeClamp himage _ 0).1, hxy.2⟩)
  refine ⟨t, hexec, fun x y hxy => ?_⟩
  obtain ⟨-, halpha, hmean⟩ := hpixel x y hxy
  exact ⟨htmpUniform x y hxy, (hmean c).2.trans (mean_of_equal_samples _ fun d =>
    htmpUniform _ _ ⟨hxy.1, (inImage_edgeClamp himage 0 _).2⟩), halpha⟩

/-! ### The radius (R191) -/

theorem blurRadius_of_nonpos {b : Block} (h : b.radius.toInt ≤ 0) : blurRadius b = 1 := by
  unfold blurRadius clamp sext
  omega

theorem blurRadius_of_gt_ten {b : Block} (h : 10 < b.radius.toInt) : blurRadius b = 10 := by
  unfold blurRadius clamp sext
  omega

/-- BLUR_APPLY uses RADIUS only as the radius it is clamped to. -/
theorem blurApplyWrites_radius {b : Block} {v u : Word}
    (h : blurRadius { b with radius := v } = blurRadius { b with radius := u }) (mem : Memory) :
    blurApplyWrites { b with radius := v } mem = blurApplyWrites { b with radius := u } mem := by
  have hhorizontal (c : Channel) (x y : Nat) :
      blurHorizontal { b with radius := v } mem c x y = blurHorizontal { b with radius := u } mem c x y := by
    rw [blurHorizontal, h]
    rfl
  have hvertical (c : Channel) (x y : Nat) :
      blurVertical { b with radius := v } mem c x y = blurVertical { b with radius := u } mem c x y := by
    simp only [blurVertical, h, hhorizontal]
    rfl
  unfold blurApplyWrites
  refine congrArg₂ _ (imageWrites_congr fun x y _ _ => ?_) (imageWrites_congr fun x y _ _ => ?_)
  · simp only [blurTmpPixel, hhorizontal]
  · simp only [blurDstPixel, hvertical]

/-- Two values of RADIUS that are clamped alike give the same memory, and each keeps its own value in the block. -/
theorem exec_blurApply_radius {s : State} {v u : Word}
    (h : blurRadius { s.block with radius := v } = blurRadius { s.block with radius := u }) :
    ∃ t t', exec .blurApply { s with block := { s.block with radius := v } } = .next t ∧
      exec .blurApply { s with block := { s.block with radius := u } } = .next t' ∧
      t.mem = t'.mem ∧ t.block = { t'.block with radius := v } ∧ t'.block.radius = u := by
  refine ⟨_, _, exec_eq .blurApply _, exec_eq .blurApply _, ?_, rfl, rfl⟩
  have hwrites : commandWrites .blurApply { s with block := { s.block with radius := v } } =
      commandWrites .blurApply { s with block := { s.block with radius := u } } := by
    rw [commandWrites, blurApplyWrites_radius h]
    rfl
  exact congrArg (Memory.writeWords s.mem) hwrites

/-- Settles O39: each case gives one radius, 1 or 10. -/
theorem blurRadiusIsClamped : Obligations.BlurRadiusIsClamped := by
  rintro s v u (⟨hlow, rfl⟩ | ⟨hhigh, rfl⟩)
  · exact exec_blurApply_radius (blurRadius_of_nonpos hlow)
  · exact exec_blurApply_radius (blurRadius_of_gt_ten hhigh)

end Sys2Proof.Machine

/-! PROOFS. The statements of 60_exceptions.md: the interrupt output (R256, R257) and host accesses outside system memory
(R262, R268). -/

namespace Sys2Proof.Machine

/-! ### The interrupt output (R256, R257) -/

/-- IRQ_EN is bit 1 of CTRL, all other bits 0 (R35). -/
theorem ctrlWord_toNat (b : Block) : (ctrlWord b).toNat = 2 * b.irqEn.toNat := by
  simp only [ctrlWord, flagBit, toNat_append_eq_add, BitVec.toNat_ofBool, BitVec.ofNat_eq_ofNat, BitVec.toNat_ofNat]
  omega

/-- A CTRL write without START sets IRQ_EN and nothing else (R35). -/
theorem writeCtrl_of_no_start {w : Word} (b : Block) (hstart : w.getLsbD 0 = false) :
    writeCtrl b w = { b with irqEn := w.getLsbD 1 } := if_neg (Bool.eq_false_iff.mp hstart)

/-- A STATUS write of both outcome bits leaves neither DONE nor ERR, and so no interrupt (R37, R256). -/
theorem irq_clearStatus {w : Word} (b : Block) (hdone : w.getLsbD 1 = true) (herr : w.getLsbD 2 = true) :
    irq { b with status := clearStatus w b.status } = false := by
  rw [clearStatus_of_bit_two b.status herr]
  simp only [irq, hdone, Bool.not_true, Bool.and_false, Bool.or_self]

/-- Settles O47: the CTRL write sets IRQ_EN alone, which `ctrlWord` gives back, and the STATUS write is `clearStatus`. -/
theorem interruptFollowsTheFlags : Obligations.InterruptFollowsTheFlags := by
  refine ⟨fun _ => rfl, fun s rest w hstart hsrst hhost => ?_, fun s rest w hdone herr hhost => ?_⟩
  · refine ⟨_, hostStep_regWrite (by decide) (by decide) hhost, ?_⟩
    rw [busWrite_ctrl hsrst, writeCtrl_of_no_start _ hstart]
    exact ⟨rfl, ctrlWord_toNat _⟩
  · exact ⟨_, statusWriteClearsFlags.2 s rest w hhost, irq_clearStatus s.block hdone herr⟩

/-! ### Host accesses outside system memory (R268) -/

/-- A store that does not end inside memory is refused (R268). -/
theorem hostStore_outside {s : State} {addr len : Nat} (store : Memory → Memory)
    (h : s.config.memSize < addr + len) : hostStore s addr len store = .refused .outsideMemory := if_pos h

/-- A load that does not end inside memory is refused (R268). -/
theorem hostLoad_outside {s : State} {addr len : Nat} (load : Memory → Word)
    (h : s.config.memSize < addr + len) : hostLoad s addr len load = .refused .outsideMemory := if_pos h

/-- Settles O56: a store or load of a word or a byte is `hostStore` or `hostLoad` of that length. -/
theorem accessOutsideMemoryIsRefused : Obligations.AccessOutsideMemoryIsRefused := by
  refine fun s a v b rest => ⟨fun hword => ?_, fun hbyte => ?_⟩
  · rintro (hhost | hhost) <;> simp only [hostStep, hhost]
    · exact hostStore_outside _ hword
    · exact hostLoad_outside _ hword
  · have hend : s.config.memSize < a + 1 := Nat.lt_succ_of_le hbyte
    rintro (hhost | hhost) <;> simp only [hostStep, hhost]
    · exact hostStore_outside _ hend
    · exact hostLoad_outside _ hend

end Sys2Proof.Machine

/-! PROOFS. The statements of 70_reset_and_hazards.md: what a reset leaves in the block (R280, R282) and in memory
(R283, R284). -/

namespace Sys2Proof.Machine

/-! ### The reset move (R280) -/

/-- The move `rst` is `resetBlock`. -/
theorem hostStep_rst {s : State} {rest : List HostOp} (hhost : s.host = .rst :: rest) :
    hostStep s = .next (resetBlock { s with host := rest }) := by
  simp only [hostStep, hhost]

/-- The reset value of M and N: 1.0 on the diagonal (R45, R46). -/
theorem identity_getElem (i : Fin 20) :
    ColorMatrix.identity[i] = if i.val ∈ [0, 6, 12, 18] then 0x00010000 else 0 := by
  revert i
  decide

/-- The reset value of K: 1.0 in the centre (R48). -/
theorem kernelIdentity_getElem (i : Fin 9) :
    ConvKernel.identity[i] = if i.val = 4 then 0x00010000 else 0 := by
  revert i
  decide

/-- Settles O1: the move gives the reset block, whose registers are constants. -/
theorem resetEstablishesEveryRegisterValue : Obligations.ResetEstablishesEveryRegisterValue := by
  intro s rest hhost
  refine ⟨_, hostStep_rst hhost, ?_⟩
  rw [resetBlock_block]
  exact ⟨rfl, rfl, rfl, rfl, rfl, rfl, rfl, rfl, rfl, rfl, rfl, rfl, rfl, rfl, rfl, rfl,
    identity_getElem, identity_getElem, kernelIdentity_getElem, fun _ => ⟨rfl, rfl⟩⟩

/-! ### The soft reset (R282) -/

/-- A CTRL write with SRST set is a reset, whatever its other bits (R35). -/
theorem busWrite_softReset {w : Word} (s : State) (hsrst : w.getLsbD 2 = true) : busWrite s 0x008 w = resetBlock s :=
  if_pos ⟨rfl, hsrst⟩

/-- Settles O3: both moves are `resetBlock` of the state with the move taken off the host's list. -/
theorem softResetActsAsReset : Obligations.SoftResetActsAsReset := by
  intro s rest w hsrst hhost
  have hmove : hostStep s = .next (resetBlock { s with host := rest }) := by
    rw [hostStep_regWrite (by decide) (by decide) hhost, busWrite_softReset _ hsrst]
  have hrst : hostStep { s with host := .rst :: rest } = .next (resetBlock { s with host := rest }) :=
    hostStep_rst (s := { s with host := .rst :: rest }) rfl
  exact ⟨hmove.trans hrst.symm, _, hmove, rfl, rfl, rfl, rfl⟩

/-! ### Memory across a reset (R283, R284) -/

/-- The reset move performs some of the pending writes, which do not depend on the host's moves (R283). -/
theorem resetBlock_mem_eq_performSome (s : State) (rest : List HostOp) :
    (resetBlock { s with host := rest }).mem = (performSome s (pendingWrites s)).mem := rfl

/-- Without pending writes no byte changes (R284). -/
theorem performSome_mem_of_no_pendingWrites {s : State} (h : pendingWrites s = []) :
    (performSome s (pendingWrites s)).mem = s.mem := by
  rw [performSome_mem, h, performedNow_nil, writeWords_nil]

/-- Settles O4: an IDLE engine has no pending writes. -/
theorem resetWhileIdleKeepsMemory : Obligations.ResetWhileIdleKeepsMemory := by
  intro s rest hidle hhost
  refine ⟨_, hostStep_rst hhost, ?_, rfl, rfl⟩
  rw [resetBlock_mem_eq_performSome, performSome_mem_of_no_pendingWrites (pendingWrites_idle hidle)]

/-- A running word that encodes no command, or whose checks are going to fail, has no pending writes (R101, R126). -/
theorem pendingWrites_of_no_output {s : State} {cur : Word} (hbusy : s.block.engine = .busy cur)
    (h : EncodesNoCommand cur ∨ ∃ i, decode cur = .ok i ∧ ¬ CommandReady i s) : pendingWrites s = [] := by
  rcases h with hnone | ⟨i, hd, hfails⟩
  · obtain ⟨e, hd⟩ := (reservedWordsEncodeNoCommand cur).mp hnone
    exact pendingWrites_error hbusy hd
  · exact pendingWrites_of_not_ready hbusy hd hfails

/-- Performing pending writes leaves every byte outside the running command's output regions (R80, R283). -/
theorem performSome_onlyOutputChanged {s : State} {cur : Word} {i : Instr} (hbusy : s.block.engine = .busy cur)
    (hd : decode cur = .ok i) : OnlyOutputChanged i s (performSome s (pendingWrites s)) := by
  intro a ha
  refine performSome_outside fun u hu => ?_
  rw [pendingWrites_ok hbusy hd] at hu
  by_contra hin
  exact ha (commandWrites_inOutput hu (by omega) (by omega))

/-- Performing pending writes leaves each aligned output word of a ready command old or final (R283). -/
theorem performSome_old_or_final {s u : State} {cur : Word} {i : Instr} {a : Nat} (hbusy : s.block.engine = .busy cur)
    (hd : decode cur = .ok i) (hready : CommandReady i s) (hexec : exec i s = .next u) (haligned : a % 4 = 0)
    (hout : InOutput i s.block a) :
    Memory.readWord (performSome s (pendingWrites s)).mem a = Memory.readWord s.mem a ∨
      Memory.readWord (performSome s (pendingWrites s)).mem a = Memory.readWord u.mem a := by
  obtain ⟨v, hv⟩ := exists_commandWrite_at hready hout haligned
  rw [readWord_exec hv hexec]
  exact performSome_word (pendingWrites_apart s) (pendingWrites_ok hbusy hd ▸ hv)

/-- Settles O53: a reset performs some of the pending writes, which are the command's own or none. -/
theorem abandonedWordsAreOldOrFinal : Obligations.AbandonedWordsAreOldOrFinal := by
  intro s cur rest hbusy hhost
  refine ⟨_, hostStep_rst hhost, rfl, fun i hd hready => ⟨?_, _, exec_eq i s, fun a haligned hout => ?_⟩,
    fun hnone => ?_⟩
  · exact performSome_onlyOutputChanged (s := s) hbusy hd
  · rw [resetBlock_mem_eq_performSome]
    exact performSome_old_or_final hbusy hd hready (exec_eq i s) haligned hout
  · rw [resetBlock_mem_eq_performSome, performSome_mem_of_no_pendingWrites (pendingWrites_of_no_output hbusy hnone)]

end Sys2Proof.Machine
